-- ==== Sys2Proof/Word.lean ====
section
/-! DEFINITION. The machine's words: what the spec treats as bits (R7, R20, R22, R71), and register numbers. -/
namespace Sys2Proof

/-- A memory byte or the contents of a V register (R20, R29). -/
abbrev Byte := BitVec 8

/-- A 16-bit quantity: I, PC, a stack entry, an instruction word (R22, R23, R24, R70). -/
abbrev Word := BitVec 16

/-- The 12-bit address field of an instruction (R71). -/
abbrev Addr := BitVec 12

/-- A register index, `x` or `y` of an instruction: exactly the 16 registers V0..VF (R20, R73). -/
abbrev Reg := Fin 16

/-- The sprite row count `n` of `Dxyn`, 0..15 (R73, R173). -/
abbrev RowCount := Fin 16

end Sys2Proof
end

