-- ==== Sys2Proof/Config.lean ====
section
/-! DEFINITION. What is fixed for the life of a machine instance (R6, R32), and the free inputs of a tick (R33).
`Config.standard` is the parameter choice of the spec's own test vectors (95_test_vectors.md, Conventions). -/
namespace Sys2Proof

/-- The two program start offsets (R2, R6, D29). -/
inductive StartOffset where
  /-- `Chip8`, "standard". -/
  | chip8
  /-- `ETI660`, "alternate". -/
  | eti660
deriving DecidableEq, Repr

/-- The reset vector each offset stands for (R6, R242). -/
def StartOffset.addr : StartOffset → Word
  | .chip8 => 0x200
  | .eti660 => 0x600

/-- The configuration of a machine instance (R6, R32): parameters of the step and of reset, written by no
instruction. An illegal configuration cannot be built (D16, D17; assumption 8). -/
structure Config where
  /-- START_OFFSET. -/
  startOffset : StartOffset
  /-- CADENCE: the timers fall once in this many counted ticks (R98). -/
  cadence : Nat
  /-- FONT: installed at address 0 by reset (R55, R240). -/
  font : List Byte
  /-- KEYWAIT_TIMERS_RUN, the spec's OPEN parameter (R97, D11). -/
  keywaitTimersRun : Bool
  /-- ANNN_DEFINED, whether the word `Annn` is an instruction (R150, D8). -/
  annnDefined : Bool
  /-- `CADENCE >= 1` (R6, D16). -/
  cadence_pos : 0 < cadence
  /-- `FONT_LEN <= 0x200` (D17), so that the font and the program never overlap. -/
  font_length : font.length ≤ 0x200
deriving DecidableEq, Repr

/-- The default font table, 16 glyphs of 5 rows. PRESUMED: 93_implementation_defined.md G2, general knowledge
(assumption 2). -/
def Config.defaultFont : List Byte :=
  [0xF0, 0x90, 0x90, 0x90, 0xF0] ++ [0x20, 0x60, 0x20, 0x20, 0x70] ++
  [0xF0, 0x10, 0xF0, 0x80, 0xF0] ++ [0xF0, 0x10, 0xF0, 0x10, 0xF0] ++
  [0x90, 0x90, 0xF0, 0x10, 0x10] ++ [0xF0, 0x80, 0xF0, 0x10, 0xF0] ++
  [0xF0, 0x80, 0xF0, 0x90, 0xF0] ++ [0xF0, 0x10, 0x20, 0x40, 0x40] ++
  [0xF0, 0x90, 0xF0, 0x90, 0xF0] ++ [0xF0, 0x90, 0xF0, 0x10, 0xF0] ++
  [0xF0, 0x90, 0xF0, 0x90, 0x90] ++ [0xE0, 0x90, 0xE0, 0x90, 0xE0] ++
  [0xF0, 0x80, 0x80, 0x80, 0xF0] ++ [0xE0, 0x90, 0x90, 0x90, 0xE0] ++
  [0xF0, 0x80, 0xF0, 0x80, 0xF0] ++ [0xF0, 0x80, 0xF0, 0x80, 0x80]

/-- The configuration of `State.reset`. DESIGN CHOICE (assumption 2): the parameters the spec's test vectors
use; no statement about the machine rests on them. -/
def Config.standard : Config where
  startOffset := .chip8
  cadence := 1
  font := Config.defaultFont
  keywaitTimersRun := true
  annnDefined := true
  cadence_pos := by decide
  font_length := by decide

/-- The free key answers for keys 0..15 in the tick with this number: bit `k` is `KEY(k)` (R33, R197;
assumption 4). No body: nothing can evaluate it. -/
opaque Config.freeKeys : Nat → BitVec 16

/-- The free answer for a key number above 15 in the tick with this number (R197, D12; assumption 5). -/
opaque Config.freeHighKey : Nat → Bool

/-- The free random byte of the tick with this number (R33, R141, D13; assumption 4). -/
opaque Config.freeRandom : Nat → Byte

end Sys2Proof
end

