-- ==== Sys2Proof/Syntax.lean ====
section
/-! DEFINITION. The instruction set as syntax: one constructor per row of spec/opcode_table.json (R75). -/
namespace Sys2Proof

/-- The 34 instructions of the opcode map (R75). Any other word is the no-op of R96 and has no constructor. -/
inductive Instr where
  /-- `00E0` CLS: clear the framebuffer (R171). -/
  | cls
  /-- `00EE` RET: return from subroutine (R110). -/
  | ret
  /-- `1nnn` JP addr (R111). -/
  | jpAddr (addr : Addr)
  /-- `2nnn` CALL addr (R112). -/
  | callAddr (addr : Addr)
  /-- `3xkk` SE Vx, kk: skip if equal (R114). -/
  | seVxKk (x : Reg) (kk : Byte)
  /-- `4xkk` SNE Vx, kk: skip if not equal (R115). -/
  | sneVxKk (x : Reg) (kk : Byte)
  /-- `5xy0` SE Vx, Vy: skip if equal (R116). -/
  | seVxVy (x y : Reg)
  /-- `6xkk` LD Vx, kk (R130). -/
  | ldVxKk (x : Reg) (kk : Byte)
  /-- `7xkk` ADD Vx, kk, no flag (R131). -/
  | addVxKk (x : Reg) (kk : Byte)
  /-- `8xy0` LD Vx, Vy (R132). -/
  | ldVxVy (x y : Reg)
  /-- `8xy1` OR Vx, Vy (R133). -/
  | orVxVy (x y : Reg)
  /-- `8xy2` AND Vx, Vy (R134). -/
  | andVxVy (x y : Reg)
  /-- `8xy3` XOR Vx, Vy (R135). -/
  | xorVxVy (x y : Reg)
  /-- `8xy4` ADD Vx, Vy with carry out (R136). -/
  | addVxVy (x y : Reg)
  /-- `8xy5` SUB Vx, Vy with not-borrow out (R137). -/
  | subVxVy (x y : Reg)
  /-- `8xy6` SHR Vx; `y` is encoded and ignored (R138, R77). -/
  | shrVx (x y : Reg)
  /-- `8xy7` SUBN Vx, Vy: the result goes to Vy (R139). -/
  | subnVxVy (x y : Reg)
  /-- `8xyE` SHL Vx; `y` is encoded and ignored (R140, R77). -/
  | shlVx (x y : Reg)
  /-- `9xy0` SNE Vx, Vy: skip if different (R117). -/
  | sneVxVy (x y : Reg)
  /-- `Annn` LD I, addr (R150; not in the spec's source, D8). -/
  | ldIAddr (addr : Addr)
  /-- `Bnnn` JP V0, addr (R113). -/
  | jpV0Addr (addr : Addr)
  /-- `Cxkk` RND Vx, kk (R141). -/
  | rndVxKk (x : Reg) (kk : Byte)
  /-- `Dxyn` DRW Vx, Vy, n (R173). -/
  | drwVxVyN (x y : Reg) (n : RowCount)
  /-- `Ex9E` SKP Vx: skip if the key is held (R190). -/
  | skpVx (x : Reg)
  /-- `ExA1` SKNP Vx: skip if the key is not held (R191). -/
  | sknpVx (x : Reg)
  /-- `Fx07` LD Vx, DT (R192). -/
  | ldVxDt (x : Reg)
  /-- `Fx0A` LD Vx, K: wait for a key (R193). -/
  | ldVxK (x : Reg)
  /-- `Fx15` LD DT, Vx (R195). -/
  | ldDtVx (x : Reg)
  /-- `Fx18` LD ST, Vx (R196). -/
  | ldStVx (x : Reg)
  /-- `Fx1E` ADD I, Vx (R151). -/
  | addIVx (x : Reg)
  /-- `Fx29` LD F, Vx (R152). -/
  | ldFVx (x : Reg)
  /-- `Fx33` LD B, Vx: store the decimal digits (R153). -/
  | ldBVx (x : Reg)
  /-- `Fx55` LD [I], Vx: store V0..Vx (R154). -/
  | ldMemVx (x : Reg)
  /-- `Fx65` LD Vx, [I]: load V0..Vx (R155). -/
  | ldVxMem (x : Reg)
deriving DecidableEq, Repr

end Sys2Proof
end

