-- ==== Sys2Proof/WellFormed.lean ====
section
/-! DEFINITION. Which instructions a machine has. The operand types of `Instr` admit exactly the values the
fields can hold (R71, R73), so no operand needs a check; the one check is the decoder switch of R6. -/
namespace Sys2Proof

/-- The instruction belongs to the instruction set of a machine with this configuration: all 34 do, but `Annn`
only where ANNN_DEFINED (R6, R76, R150). -/
def Instr.wellFormed (cfg : Config) : Instr → Bool
  | .ldIAddr _ => cfg.annnDefined
  | .cls | .ret | .jpAddr _ | .callAddr _ | .jpV0Addr _ => true
  | .seVxKk _ _ | .sneVxKk _ _ | .ldVxKk _ _ | .addVxKk _ _ | .rndVxKk _ _ => true
  | .seVxVy _ _ | .sneVxVy _ _ | .ldVxVy _ _ | .orVxVy _ _ | .andVxVy _ _ | .xorVxVy _ _ => true
  | .addVxVy _ _ | .subVxVy _ _ | .shrVx _ _ | .subnVxVy _ _ | .shlVx _ _ => true
  | .drwVxVyN _ _ _ => true
  | .skpVx _ | .sknpVx _ | .ldVxDt _ | .ldVxK _ | .ldDtVx _ | .ldStVx _ => true
  | .addIVx _ | .ldFVx _ | .ldBVx _ | .ldMemVx _ | .ldVxMem _ => true

end Sys2Proof
end

