-- ==== Sys2Proof/Decode.lean ====
section
/-! DEFINITION. The decoder (R70 to R78), total on any bytes and rejecting by name, and after it the encoder,
written from the same patterns of R75. A rejected word is the no-op of R96; the step decides that. -/
namespace Sys2Proof

/-! ### Fields (R71) -/

/-- `n1 = insn[15:12]`, the opcode family. -/
def n1 (w : Word) : BitVec 4 := w.extractLsb' 12 4
/-- `n2 = insn[11:8]`. -/
def n2 (w : Word) : BitVec 4 := w.extractLsb' 8 4
/-- `n3 = insn[7:4]`. -/
def n3 (w : Word) : BitVec 4 := w.extractLsb' 4 4
/-- `n4 = insn[3:0]`, a selector. -/
def n4 (w : Word) : BitVec 4 := w.extractLsb' 0 4
/-- `x = n2`, a register index. -/
def fieldX (w : Word) : Reg := (n2 w).toFin
/-- `y = n3`, a register index. -/
def fieldY (w : Word) : Reg := (n3 w).toFin
/-- `n = n4`, a row count. -/
def fieldN (w : Word) : RowCount := (n4 w).toFin
/-- `kk = insn[7:0]`. -/
def fieldKk (w : Word) : Byte := w.extractLsb' 0 8
/-- `addr = insn[11:0]`. -/
def fieldAddr (w : Word) : Addr := w.extractLsb' 0 12

/-! ### The opcode map (R74, R75) -/

/-- Family 0: `00E0` and `00EE` need the whole word; nothing else is an instruction (R76, D18). -/
def decode0 (w : Word) : Option Instr :=
  if w = 0x00E0 then some .cls
  else if w = 0x00EE then some .ret
  else none

/-- Family 8: the register operations, selected by `n4` (R75). -/
def decode8 (w : Word) : Option Instr :=
  if n4 w = 0x0 then some (.ldVxVy (fieldX w) (fieldY w))
  else if n4 w = 0x1 then some (.orVxVy (fieldX w) (fieldY w))
  else if n4 w = 0x2 then some (.andVxVy (fieldX w) (fieldY w))
  else if n4 w = 0x3 then some (.xorVxVy (fieldX w) (fieldY w))
  else if n4 w = 0x4 then some (.addVxVy (fieldX w) (fieldY w))
  else if n4 w = 0x5 then some (.subVxVy (fieldX w) (fieldY w))
  else if n4 w = 0x6 then some (.shrVx (fieldX w) (fieldY w))
  else if n4 w = 0x7 then some (.subnVxVy (fieldX w) (fieldY w))
  else if n4 w = 0xE then some (.shlVx (fieldX w) (fieldY w))
  else none

/-- Family E: the key skips, selected by the whole low byte (R75). -/
def decodeE (w : Word) : Option Instr :=
  if fieldKk w = 0x9E then some (.skpVx (fieldX w))
  else if fieldKk w = 0xA1 then some (.sknpVx (fieldX w))
  else none

/-- Family F: selected by the whole low byte (R75). -/
def decodeF (w : Word) : Option Instr :=
  if fieldKk w = 0x07 then some (.ldVxDt (fieldX w))
  else if fieldKk w = 0x0A then some (.ldVxK (fieldX w))
  else if fieldKk w = 0x15 then some (.ldDtVx (fieldX w))
  else if fieldKk w = 0x18 then some (.ldStVx (fieldX w))
  else if fieldKk w = 0x1E then some (.addIVx (fieldX w))
  else if fieldKk w = 0x29 then some (.ldFVx (fieldX w))
  else if fieldKk w = 0x33 then some (.ldBVx (fieldX w))
  else if fieldKk w = 0x55 then some (.ldMemVx (fieldX w))
  else if fieldKk w = 0x65 then some (.ldVxMem (fieldX w))
  else none

/-- The opcode map with all 34 rows (R75); `none` for an unknown word (R76). -/
def decodeWord (w : Word) : Option Instr :=
  if n1 w = 0x0 then decode0 w
  else if n1 w = 0x1 then some (.jpAddr (fieldAddr w))
  else if n1 w = 0x2 then some (.callAddr (fieldAddr w))
  else if n1 w = 0x3 then some (.seVxKk (fieldX w) (fieldKk w))
  else if n1 w = 0x4 then some (.sneVxKk (fieldX w) (fieldKk w))
  else if n1 w = 0x5 then (if n4 w = 0x0 then some (.seVxVy (fieldX w) (fieldY w)) else none)
  else if n1 w = 0x6 then some (.ldVxKk (fieldX w) (fieldKk w))
  else if n1 w = 0x7 then some (.addVxKk (fieldX w) (fieldKk w))
  else if n1 w = 0x8 then decode8 w
  else if n1 w = 0x9 then (if n4 w = 0x0 then some (.sneVxVy (fieldX w) (fieldY w)) else none)
  else if n1 w = 0xA then some (.ldIAddr (fieldAddr w))
  else if n1 w = 0xB then some (.jpV0Addr (fieldAddr w))
  else if n1 w = 0xC then some (.rndVxKk (fieldX w) (fieldKk w))
  else if n1 w = 0xD then some (.drwVxVyN (fieldX w) (fieldY w) (fieldN w))
  else if n1 w = 0xE then decodeE w
  else decodeF w

/-- The decoder of a machine with this configuration: with ANNN_DEFINED false the words `Annn` are unknown
(R6, R76, R150). -/
def decodeFor (cfg : Config) (w : Word) : Option Instr :=
  match decodeWord w with
  | some i => if i.wellFormed cfg then some i else none
  | none => none

/-- Why bytes are no instruction. -/
inductive Reject where
  /-- The word matches no row of the opcode map; it executes as the no-op (R76). -/
  | unknownWord (w : Word)
  /-- Fewer than two bytes: no instruction is shorter (R70). -/
  | truncated
deriving DecidableEq, Repr

/-- Decode the first instruction of a byte stream, most significant byte first (R52, R70), and return the bytes
after it. -/
def decodeBytes : List Byte → Except Reject (Instr × List Byte)
  | hi :: lo :: rest =>
    match decodeWord (hi ++ lo : Word) with
    | some i => .ok (i, rest)
    | none => .error (.unknownWord (hi ++ lo : Word))
  | _ => .error .truncated

/-- A word as the two bytes the hardware stores, most significant byte first (R52). -/
def wordBytes (w : Word) : List Byte := [w.extractLsb' 8 8, w.extractLsb' 0 8]

/-- The decoder's answer for a table row's word of `nbits` bits. -/
def decodeTableWord (nbits w : Nat) : Option Instr :=
  match decodeBytes (wordBytes (BitVec.ofNat 16 (w % 2 ^ nbits))) with
  | .ok (i, _) => some i
  | .error _ => none

/-! ### The encoder (R71, R72, R75) -/

/-- A register index as its nibble. -/
def nib (r : Fin 16) : BitVec 4 := BitVec.ofFin r

/-- Format NNN: `n1 addr`. -/
def fmtNNN (f : BitVec 4) (addr : Addr) : Word := f ++ addr
/-- Format XKK: `n1 x kk`. -/
def fmtXKK (f : BitVec 4) (x : Reg) (kk : Byte) : Word := f ++ nib x ++ kk
/-- Formats XYS and XYN: `n1 x y s`. -/
def fmtXYS (f : BitVec 4) (x y : Reg) (s : BitVec 4) : Word := f ++ nib x ++ nib y ++ s

/-- The word of an instruction. -/
def encode : Instr → Word
  | .cls => 0x00E0
  | .ret => 0x00EE
  | .jpAddr a => fmtNNN 0x1 a
  | .callAddr a => fmtNNN 0x2 a
  | .seVxKk x kk => fmtXKK 0x3 x kk
  | .sneVxKk x kk => fmtXKK 0x4 x kk
  | .seVxVy x y => fmtXYS 0x5 x y 0x0
  | .ldVxKk x kk => fmtXKK 0x6 x kk
  | .addVxKk x kk => fmtXKK 0x7 x kk
  | .ldVxVy x y => fmtXYS 0x8 x y 0x0
  | .orVxVy x y => fmtXYS 0x8 x y 0x1
  | .andVxVy x y => fmtXYS 0x8 x y 0x2
  | .xorVxVy x y => fmtXYS 0x8 x y 0x3
  | .addVxVy x y => fmtXYS 0x8 x y 0x4
  | .subVxVy x y => fmtXYS 0x8 x y 0x5
  | .shrVx x y => fmtXYS 0x8 x y 0x6
  | .subnVxVy x y => fmtXYS 0x8 x y 0x7
  | .shlVx x y => fmtXYS 0x8 x y 0xE
  | .sneVxVy x y => fmtXYS 0x9 x y 0x0
  | .ldIAddr a => fmtNNN 0xA a
  | .jpV0Addr a => fmtNNN 0xB a
  | .rndVxKk x kk => fmtXKK 0xC x kk
  | .drwVxVyN x y n => fmtXYS 0xD x y (nib n)
  | .skpVx x => fmtXKK 0xE x 0x9E
  | .sknpVx x => fmtXKK 0xE x 0xA1
  | .ldVxDt x => fmtXKK 0xF x 0x07
  | .ldVxK x => fmtXKK 0xF x 0x0A
  | .ldDtVx x => fmtXKK 0xF x 0x15
  | .ldStVx x => fmtXKK 0xF x 0x18
  | .addIVx x => fmtXKK 0xF x 0x1E
  | .ldFVx x => fmtXKK 0xF x 0x29
  | .ldBVx x => fmtXKK 0xF x 0x33
  | .ldMemVx x => fmtXKK 0xF x 0x55
  | .ldVxMem x => fmtXKK 0xF x 0x65

/-- The two bytes of an instruction in memory order (R70). -/
def encodeBytes (i : Instr) : List Byte := wordBytes (encode i)

/-! ### The rows of the opcode map as the spec prints them (R75), to hold the decoder against -/

/-- One row of R75: a word belongs to it when `(insn & mask) = match` (R74). -/
structure Row where
  mask : Word
  value : Word
deriving DecidableEq, Repr

/-- The word matches the row (R74). -/
def Row.covers (r : Row) (w : Word) : Prop := w &&& r.mask = r.value

/-- The row an instruction belongs to, mask and match as R75 prints them. -/
def Instr.row : Instr → Row
  | .cls => ⟨0xFFFF, 0x00E0⟩
  | .ret => ⟨0xFFFF, 0x00EE⟩
  | .jpAddr _ => ⟨0xF000, 0x1000⟩
  | .callAddr _ => ⟨0xF000, 0x2000⟩
  | .seVxKk _ _ => ⟨0xF000, 0x3000⟩
  | .sneVxKk _ _ => ⟨0xF000, 0x4000⟩
  | .seVxVy _ _ => ⟨0xF00F, 0x5000⟩
  | .ldVxKk _ _ => ⟨0xF000, 0x6000⟩
  | .addVxKk _ _ => ⟨0xF000, 0x7000⟩
  | .ldVxVy _ _ => ⟨0xF00F, 0x8000⟩
  | .orVxVy _ _ => ⟨0xF00F, 0x8001⟩
  | .andVxVy _ _ => ⟨0xF00F, 0x8002⟩
  | .xorVxVy _ _ => ⟨0xF00F, 0x8003⟩
  | .addVxVy _ _ => ⟨0xF00F, 0x8004⟩
  | .subVxVy _ _ => ⟨0xF00F, 0x8005⟩
  | .shrVx _ _ => ⟨0xF00F, 0x8006⟩
  | .subnVxVy _ _ => ⟨0xF00F, 0x8007⟩
  | .shlVx _ _ => ⟨0xF00F, 0x800E⟩
  | .sneVxVy _ _ => ⟨0xF00F, 0x9000⟩
  | .ldIAddr _ => ⟨0xF000, 0xA000⟩
  | .jpV0Addr _ => ⟨0xF000, 0xB000⟩
  | .rndVxKk _ _ => ⟨0xF000, 0xC000⟩
  | .drwVxVyN _ _ _ => ⟨0xF000, 0xD000⟩
  | .skpVx _ => ⟨0xF0FF, 0xE09E⟩
  | .sknpVx _ => ⟨0xF0FF, 0xE0A1⟩
  | .ldVxDt _ => ⟨0xF0FF, 0xF007⟩
  | .ldVxK _ => ⟨0xF0FF, 0xF00A⟩
  | .ldDtVx _ => ⟨0xF0FF, 0xF015⟩
  | .ldStVx _ => ⟨0xF0FF, 0xF018⟩
  | .addIVx _ => ⟨0xF0FF, 0xF01E⟩
  | .ldFVx _ => ⟨0xF0FF, 0xF029⟩
  | .ldBVx _ => ⟨0xF0FF, 0xF033⟩
  | .ldMemVx _ => ⟨0xF0FF, 0xF055⟩
  | .ldVxMem _ => ⟨0xF0FF, 0xF065⟩

end Sys2Proof
end

