-- ==== Sys2Proof/Machine/State.lean ====
section
/-! DEFINITION. The state of the machine (10_state.md R20 to R31), plain data; the reasons a step can stop; and the
state right after reset (R35, R240). -/
namespace Sys2Proof.Machine
open Sys2Proof

/-- Memory: the bytes that differ from the reset contents of an empty program (`unlisted`, Machine/Ops.lean), by
strictly rising address (R29, R50; assumption 26). -/
abbrev Memory := List Host.Cell

/-- The framebuffer: 32 rows of 64 pixels, row first (R30, R170). -/
abbrev Frame := Vector (Vector Bool 64) 32

/-- The wait-for-key state (R31): `reg` is meaningful only while `active`, and keeps its value after (R194). -/
structure Wait where
  active : Bool
  reg : Reg
deriving DecidableEq, Repr

/-- What the environment supplies to one tick (R33, R197): bit `k` of `keys` is `KEY(k)`, `highKey` answers the one
query of a key number above 15 a tick can make (D12), `random` is `RND`. -/
structure TickInput where
  keys : BitVec 16
  highKey : Bool
  random : Byte
deriving DecidableEq, Repr

/-- The machine. The first twelve fields are the state of R20 to R31; `hasReset` is R91's condition; `cfg` is the
configuration of R32, which nothing but reset/load changes (assumption 1); `inputs` and `draws` are the model's
own, the inputs of the ticks to come (assumption 3). -/
structure State where
  /-- V0..VF; VF is index 15 (R20, R21). -/
  v : Vector Byte 16
  /-- I (R22). -/
  i : Word
  /-- PC (R23). -/
  pc : Word
  /-- STACK[0..15] (R24). -/
  stack : Vector Word 16
  /-- SP, 0..15 (R25). -/
  sp : Fin 16
  /-- DT (R26). -/
  dt : Byte
  /-- ST (R27). -/
  st : Byte
  /-- TICKS (R28). -/
  ticks : BitVec 64
  /-- MEM (R29). -/
  mem : Memory
  /-- FB (R30). -/
  fb : Frame
  /-- WAIT (R31). -/
  wait : Wait
  /-- Whether a reset/load has succeeded (R91, R243; assumption 7). -/
  hasReset : Bool
  /-- The configuration (R32). -/
  cfg : Config
  /-- What the environment supplies to the next ticks, first one first (assumption 3). -/
  inputs : List TickInput
  /-- How many ticks have taken their input: the argument of the free inputs (assumption 3). -/
  draws : Nat
deriving DecidableEq, Repr

/-- The errors of a tick (R100, R210). Each ends the tick with the state unchanged (R99, R217) and is reported to
the environment; the recorded value is the one R211 to R213 name. -/
inductive Fault where
  /-- Raised by `2nnn` with SP = 15; records SP (R211). Safe: the machine itself stops the tick so. -/
  | stackOverflow (sp : Fin 16)
  /-- Raised by `00EE` with SP = 0; records SP (R212). Safe: the machine itself stops the tick so. -/
  | stackUnderflow (sp : Fin 16)
  /-- Raised by the fetch, `Dxyn`, `Fx33`, `Fx55`, `Fx65` when the last byte lies above 4095; records the first
  address (R213). Safe: the machine itself stops the tick so. -/
  | memoryOutOfRange (addr : Nat)
deriving DecidableEq, Repr

/-- Why the model gives a step no meaning. -/
inductive Refusal where
  /-- An instruction without a meaning yet. No arm of `exec` raises it. Safe. -/
  | notModelled (mnemonic : String)
  /-- Raised by `step` on a machine that was never reset: "a model refuses to step" (R91, R243, D22). Safe. -/
  | notReset
deriving DecidableEq, Repr

/-- The state reset leaves with an empty program image (R35, R240): every value is the spec's, but `inputs` and
`draws`, which are the model's (assumption 3). -/
def State.blank (cfg : Config) : State where
  v := Vector.replicate 16 0
  i := 0
  pc := cfg.startOffset.addr
  stack := Vector.replicate 16 0
  sp := 0
  dt := 0
  st := 0
  ticks := 0
  mem := []
  fb := Vector.replicate 32 (Vector.replicate 64 false)
  wait := { active := false, reg := 0 }
  hasReset := true
  cfg := cfg
  inputs := []
  draws := 0

/-- The machine right after reset, with the parameters of the spec's test vectors (assumption 2). -/
def State.reset : State := State.blank Config.standard

end Sys2Proof.Machine
end

