-- ==== Sys2Proof/Machine/Ops.lean ====
section
/-! DEFINITION. The named operations over memory, registers, the stack, the frame and the inputs; raising an error.
Every read and write of the state goes through these. -/
namespace Sys2Proof.Machine
open Sys2Proof

/-- What a step or a meaning answers. -/
abbrev Result := Host.Outcome State Fault Refusal

/-! ### Raising an error (R11, R99, R217) -/

/-- Raise an error: the tick ends with it and the state it started from stands (R217). Nothing is saved, no vector
is taken, no mode changes; there is no return from an error (R218). -/
def raise (f : Fault) : Result := .fault f

/-! ### Memory (R50, R51, R55) -/

/-- MEM_SIZE (R6). -/
def memSize : Nat := 4096

/-- What an address that the memory does not list reads as: the reset contents, FONT from address 0 and zero
everywhere else (R35, R55). -/
def unlisted (font : List Byte) (a : Nat) : Byte := font.getD a 0

/-- The byte at an address. -/
def Memory.get (font : List Byte) : Memory → Nat → Byte
  | [], a => unlisted font a
  | (c, b) :: rest, a => if a = c then b else Memory.get font rest a

/-- List a byte at an address, in its place. -/
def Memory.put : Memory → Nat → Byte → Memory
  | [], a, b => [(a, b)]
  | (c, d) :: rest, a, b =>
    if a < c then (a, b) :: (c, d) :: rest
    else if a = c then (a, b) :: rest
    else (c, d) :: Memory.put rest a b

/-- Unlist an address. -/
def Memory.drop : Memory → Nat → Memory
  | [], _ => []
  | (c, d) :: rest, a => if a = c then Memory.drop rest a else (c, d) :: Memory.drop rest a

/-- Write a byte, keeping the canonical form: the value an unlisted address reads as is not listed. -/
def Memory.set (font : List Byte) (m : Memory) (a : Nat) (b : Byte) : Memory :=
  if b = unlisted font a then m.drop a else m.put a b

/-- Write bytes at successive addresses. -/
def Memory.setAll (font : List Byte) : Memory → Nat → List Byte → Memory
  | m, _, [] => m
  | m, a, b :: bs => Memory.setAll font (m.set font a b) (a + 1) bs

/-- Every listed address lies above `lo`, strictly rising, inside the memory, with a byte that an unlisted address
would not read as. -/
def Memory.wfFrom (font : List Byte) : Nat → Memory → Bool
  | _, [] => true
  | lo, (c, b) :: rest =>
    decide (lo ≤ c) && decide (c < memSize) && decide (b ≠ unlisted font c) && Memory.wfFrom font (c + 1) rest

/-- The canonical form: equal memories are equal lists. -/
def Memory.wf (font : List Byte) (m : Memory) : Bool := Memory.wfFrom font 0 m

/-- The byte at an address of the machine's memory: `MEM[a]`. -/
def State.readByte (s : State) (a : Nat) : Byte := Memory.get s.cfg.font s.mem a

/-- An access of `n` bytes from `a` is in range: its last byte lies at most at 4095; no byte, no check (R51, R57,
R173). The address is not reduced, so nothing wraps. -/
def inRange (a n : Nat) : Bool := n == 0 || decide (a + n - 1 ≤ 4095)

/-- `MemRead`: the bytes `a .. a+n-1`, or MemoryOutOfRange before any is read (R51, R57). -/
def State.memRead (s : State) (a n : Nat) : Except Fault (List Byte) :=
  if inRange a n then .ok ((List.range n).map fun j => s.readByte (a + j))
  else .error (.memoryOutOfRange a)

/-- `MemWrite` of successive bytes from `a`, or MemoryOutOfRange before any is written (R51, R57). -/
def State.memWrite (s : State) (a : Nat) (bs : List Byte) : Result :=
  if inRange a bs.length then .next { s with mem := s.mem.setAll s.cfg.font a bs }
  else raise (.memoryOutOfRange a)

/-- Fetch: the big-endian word at PC, or MemoryOutOfRange if PC is above 4094 (R52, R93). -/
def State.fetchWord (s : State) : Except Fault Word :=
  if inRange s.pc.toNat 2 then .ok (s.readByte s.pc.toNat ++ s.readByte (s.pc.toNat + 1) : Word)
  else .error (.memoryOutOfRange s.pc.toNat)

/-! ### Registers (R20 to R23) -/

/-- VF, register index 15 (R21). -/
def vf : Reg := 15

/-- `V[r]`. -/
def State.reg (s : State) (r : Reg) : Byte := s.v.get r

/-- `V[r] <- b`. -/
def State.setReg (s : State) (r : Reg) (b : Byte) : State := { s with v := s.v.set r b }

/-- `V[j], V[j+1], … <- bs`, in ascending order (R155). -/
def State.setRegs : State → Nat → List Byte → State
  | s, _, [] => s
  | s, j, b :: bs => (s.setReg (Fin.ofNat 16 j) b).setRegs (j + 1) bs

/-- V0..Vx in ascending order, `x + 1` bytes (R154). -/
def State.regsUpTo (s : State) (x : Reg) : List Byte := s.v.toList.take (x.val + 1)

/-- `I <- w`. -/
def State.setI (s : State) (w : Word) : State := { s with i := w }

/-- `PC <- w`. -/
def State.setPc (s : State) (w : Word) : State := { s with pc := w }

/-- `PC <- (PC + 2) mod 65536`: the advance at fetch (R94), and a skip that is taken (R114). -/
def State.advancePc (s : State) : State := s.setPc (s.pc + 2)

/-- A skip: PC advances by a further 2 if the condition holds (R94, R114). -/
def State.skipIf (s : State) (c : Bool) : State := if c then s.advancePc else s

/-! ### Call stack (R24, R25) -/

/-- Push: SP rises first, then `STACK[SP] <- w`; StackOverflow at SP = 15 before anything changes (R112, R211). -/
def State.push (s : State) (w : Word) : Except Fault State :=
  let top : Fin 16 := s.sp + 1
  if s.sp = 15 then .error (.stackOverflow s.sp)
  else .ok { s with sp := top, stack := s.stack.set top w }

/-- Pop: `STACK[SP]`, then SP falls; the entry stays. StackUnderflow at SP = 0 before anything changes (R110,
R212). -/
def State.pop (s : State) : Except Fault (Word × State) :=
  if s.sp = 0 then .error (.stackUnderflow s.sp)
  else .ok (s.stack.get s.sp, { s with sp := s.sp - 1 })

/-! ### Framebuffer (R30, R170) -/

/-- `FB[r][c]`. -/
def Frame.pixel (fb : Frame) (r : Fin 32) (c : Fin 64) : Bool := (fb.get r).get c

/-- `FB[r][c] <- p`. -/
def Frame.setPixel (fb : Frame) (r : Fin 32) (c : Fin 64) (p : Bool) : Frame :=
  fb.set r ((fb.get r).set c p)

/-- Every pixel off (R171). -/
def Frame.clear : Frame := Vector.replicate 32 (Vector.replicate 64 false)

/-! ### Inputs of the tick (R33, R197): the environment's if it supplies one, else free (assumptions 3, 4) -/

/-- The key answers for keys 0..15 in this tick. -/
def State.keys (s : State) : BitVec 16 :=
  match s.inputs with
  | t :: _ => t.keys
  | [] => Config.freeKeys s.draws

/-- The answer for a key number above 15 in this tick; a tick makes at most one such query (R197, D12). -/
def State.highKey (s : State) : Bool :=
  match s.inputs with
  | t :: _ => t.highKey
  | [] => Config.freeHighKey s.draws

/-- RND, the random byte of this tick (R141). -/
def State.random (s : State) : Byte :=
  match s.inputs with
  | t :: _ => t.random
  | [] => Config.freeRandom s.draws

/-- `KEY(k)` in this tick (R12, R197). -/
def State.keyHeld (s : State) (k : Nat) : Bool :=
  if k < 16 then s.keys.getLsbD k else s.highKey

/-- The tick is over: the next one takes the next input. -/
def State.nextInput (s : State) : State :=
  { s with inputs := s.inputs.tail, draws := s.draws + 1 }

end Sys2Proof.Machine
end

