-- ==== Sys2Proof/Machine/Operands.lean ====
section
/-! DEFINITION. Operand assembly (R73): every operand is unsigned, with no scaling and no sign extension; and the
data an operand stands for. -/
namespace Sys2Proof.Machine
open Sys2Proof

/-- `zext_16` of a 12-bit address field (R73). -/
def addrWord (a : Addr) : Word := a.setWidth 16

/-- `zext_16` of a byte (R7, R73). -/
def byteWord (b : Byte) : Word := b.setWidth 16

/-- A register value as the key number it names: all 8 bits (R190, R197). -/
def keyNumber (b : Byte) : Nat := b.toNat

/-- GLYPH_H: 5 bytes a glyph (R6). -/
def glyphHeight : Word := 5

/-- The address of a glyph: the whole byte times 5, exact in 16 bits (R152). -/
def glyphAddr (b : Byte) : Word := byteWord b * glyphHeight

/-- The decimal digits of a byte, hundreds, tens, ones (R153). -/
def decimalDigits (b : Byte) : List Byte :=
  [BitVec.ofNat 8 (b.toNat / 100), BitVec.ofNat 8 (b.toNat / 10 % 10), BitVec.ofNat 8 (b.toNat % 10)]

end Sys2Proof.Machine
end

