-- ==== Sys2Proof/Machine/Flags.lean ====
section
/-! DEFINITION. Flag computations (R21, R142) and the order of the flag's and the result's write (R143). -/
namespace Sys2Proof.Machine
open Sys2Proof

/-- A flag as the byte written to VF: exactly 0 or 1 (R21). -/
def flagByte (c : Bool) : Byte := if c then 1 else 0

/-- Carry: the true sum exceeds 255 (R136, R142). -/
def carry (a b : Byte) : Bool := decide (a.toNat + b.toNat > 255)

/-- Not-borrow: minuend >= subtrahend, equality included (R137, R139, R142). -/
def notBorrow (minuend subtrahend : Byte) : Bool := decide (minuend.toNat ≥ subtrahend.toNat)

/-- The bit a right shift drops: bit 0 (R138). -/
def lowBit (a : Byte) : Bool := a.getLsbD 0

/-- The bit a left shift drops: bit 7 (R140). -/
def highBit (a : Byte) : Bool := a.getLsbD 7

/-- `VF <- flag`. -/
def State.setFlag (s : State) (c : Bool) : State := s.setReg vf (flagByte c)

/-- Result first, flag second: the order of `8xy4`, so the flag stands where the destination is VF (R143). -/
def State.resultThenFlag (s : State) (d : Reg) (res : Byte) (c : Bool) : State :=
  (s.setReg d res).setFlag c

/-- Flag first, result second: the order of `8xy5`, `8xy6`, `8xy7`, `8xyE`, so the result stands where the
destination is VF (R143). -/
def State.flagThenResult (s : State) (d : Reg) (res : Byte) (c : Bool) : State :=
  (s.setFlag c).setReg d res

end Sys2Proof.Machine
end

