-- ==== Sys2Proof/Machine/Alu.lean ====
section
/-! DEFINITION. Register and ALU instructions (42_alu.md). Operands are read from the state at entry (R143);
arithmetic is modulo 256 (R142). -/
namespace Sys2Proof.Machine
open Sys2Proof

/-- `6xkk` LD Vx, kk (R130). -/
def execLdVxKk (x : Reg) (kk : Byte) (s : State) : Result := .next (s.setReg x kk)

/-- `7xkk` ADD Vx, kk: no flag (R131). -/
def execAddVxKk (x : Reg) (kk : Byte) (s : State) : Result := .next (s.setReg x (s.reg x + kk))

/-- `8xy0` LD Vx, Vy (R132). -/
def execLdVxVy (x y : Reg) (s : State) : Result := .next (s.setReg x (s.reg y))

/-- `8xy1` OR Vx, Vy (R133). -/
def execOrVxVy (x y : Reg) (s : State) : Result := .next (s.setReg x (s.reg x ||| s.reg y))

/-- `8xy2` AND Vx, Vy (R134). -/
def execAndVxVy (x y : Reg) (s : State) : Result := .next (s.setReg x (s.reg x &&& s.reg y))

/-- `8xy3` XOR Vx, Vy (R135). -/
def execXorVxVy (x y : Reg) (s : State) : Result := .next (s.setReg x (s.reg x ^^^ s.reg y))

/-- `8xy4` ADD Vx, Vy: VF = carry, written last (R136). -/
def execAddVxVy (x y : Reg) (s : State) : Result :=
  .next (s.resultThenFlag x (s.reg x + s.reg y) (carry (s.reg x) (s.reg y)))

/-- `8xy5` SUB Vx, Vy: VF = not-borrow, Vx written last (R137). -/
def execSubVxVy (x y : Reg) (s : State) : Result :=
  .next (s.flagThenResult x (s.reg x - s.reg y) (notBorrow (s.reg x) (s.reg y)))

/-- `8xy6` SHR Vx: VF = bit 0, Vx written last; Vy is not read (R138, R77). -/
def execShrVx (x _y : Reg) (s : State) : Result :=
  .next (s.flagThenResult x (s.reg x >>> 1) (lowBit (s.reg x)))

/-- `8xy7` SUBN Vx, Vy: VF = not-borrow of Vy - Vx, the result to Vy, written last (R139). -/
def execSubnVxVy (x y : Reg) (s : State) : Result :=
  .next (s.flagThenResult y (s.reg y - s.reg x) (notBorrow (s.reg y) (s.reg x)))

/-- `8xyE` SHL Vx: VF = bit 7, Vx written last; Vy is not read (R140, R77). -/
def execShlVx (x _y : Reg) (s : State) : Result :=
  .next (s.flagThenResult x (s.reg x <<< 1) (highBit (s.reg x)))

/-- `Cxkk` RND Vx, kk: the tick's random byte, masked (R141). -/
def execRndVxKk (x : Reg) (kk : Byte) (s : State) : Result := .next (s.setReg x (s.random &&& kk))

end Sys2Proof.Machine
end

