-- ==== Sys2Proof/Machine/Control.lean ====
section
/-! DEFINITION. Control transfer (41_control_flow.md) and the no-op. In every meaning PC already holds the fetch
address + 2 (R94). -/
namespace Sys2Proof.Machine
open Sys2Proof

/-- `NOP`, every word that matches no row: nothing; PC was advanced at fetch (R76, R96). -/
def execNop (s : State) : Result := .next s

/-- `00EE` RET (R110). -/
def execRet (s : State) : Result :=
  match s.pop with
  | .ok (w, s') => .next (s'.setPc w)
  | .error f => raise f

/-- `1nnn` JP addr (R111). -/
def execJpAddr (a : Addr) (s : State) : Result := .next (s.setPc (addrWord a))

/-- `2nnn` CALL addr: pushes the advanced PC (R112). -/
def execCallAddr (a : Addr) (s : State) : Result :=
  match s.push s.pc with
  | .ok s' => .next (s'.setPc (addrWord a))
  | .error f => raise f

/-- `Bnnn` JP V0, addr: always V0, the sum not reduced to 12 bits (R113). -/
def execJpV0Addr (a : Addr) (s : State) : Result :=
  .next (s.setPc (addrWord a + byteWord (s.reg 0)))

/-- `3xkk` SE Vx, kk (R114). -/
def execSeVxKk (x : Reg) (kk : Byte) (s : State) : Result := .next (s.skipIf (s.reg x == kk))

/-- `4xkk` SNE Vx, kk (R115). -/
def execSneVxKk (x : Reg) (kk : Byte) (s : State) : Result := .next (s.skipIf (s.reg x != kk))

/-- `5xy0` SE Vx, Vy (R116). -/
def execSeVxVy (x y : Reg) (s : State) : Result := .next (s.skipIf (s.reg x == s.reg y))

/-- `9xy0` SNE Vx, Vy (R117). -/
def execSneVxVy (x y : Reg) (s : State) : Result := .next (s.skipIf (s.reg x != s.reg y))

end Sys2Proof.Machine
end

