-- ==== Sys2Proof/Machine/Display.lean ====
section
/-! DEFINITION. The framebuffer: clear, and the XOR sprite blit with wraparound and collision (44_display.md). -/
namespace Sys2Proof.Machine
open Sys2Proof

/-- `bit = b[7 - col]`: column 0 is the most significant bit (R172). -/
def spriteBit (b : Byte) (col : Nat) : Bool := b.getLsbD (7 - col)

/-- The row a y coordinate falls in, modulo 32 (R172). -/
def wrapRow (y : Nat) : Fin 32 := Fin.ofNat 32 y

/-- The column an x coordinate falls in, modulo 64 (R172). -/
def wrapCol (x : Nat) : Fin 64 := Fin.ofNat 64 x

/-- Blit one bit at a coordinate: XOR it in, and collide if an on pixel meets a 1 bit (R172). -/
def plot (x y : Nat) (bit : Bool) (acc : Frame × Bool) : Frame × Bool :=
  let old := acc.1.pixel (wrapRow y) (wrapCol x)
  (acc.1.setPixel (wrapRow y) (wrapCol x) (xor old bit), acc.2 || (old && bit))

/-- Blit the bits of one sprite row, from column `col` on, for `k` columns (R172). -/
def drawCols (x0 y : Nat) (b : Byte) : Nat → Nat → Frame × Bool → Frame × Bool
  | 0, _, acc => acc
  | k + 1, col, acc => drawCols x0 y b k (col + 1) (plot (x0 + col) y (spriteBit b col) acc)

/-- Blit the rows of a sprite from the top one down (R172). -/
def drawRows (x0 : Nat) : Nat → List Byte → Frame × Bool → Frame × Bool
  | _, [], acc => acc
  | y, b :: bs, acc => drawRows x0 (y + 1) bs (drawCols x0 y b 8 0 acc)

/-- `Draw(x0, y0, rows)`: the frame after the blit and whether it collided (R172). -/
def draw (fb : Frame) (x0 y0 : Nat) (rows : List Byte) : Frame × Bool :=
  drawRows x0 y0 rows (fb, false)

/-- `00E0` CLS (R171). -/
def execCls (s : State) : Result := .next { s with fb := Frame.clear }

/-- `Dxyn` DRW Vx, Vy, n: `n` rows from I at (Vx, Vy), VF = collision, always written (R173). -/
def execDrwVxVyN (x y : Reg) (n : RowCount) (s : State) : Result :=
  match s.memRead s.i.toNat n.val with
  | .ok rows =>
    let drawn := draw s.fb (s.reg x).toNat (s.reg y).toNat rows
    .next ({ s with fb := drawn.1 }.setFlag drawn.2)
  | .error f => raise f

end Sys2Proof.Machine
end

