-- ==== Sys2Proof/Machine/Index.lean ====
section
/-! DEFINITION. Address register and memory instructions (43_index_memory.md). None changes I but `Annn`, `Fx1E`
and `Fx29` (R22); none writes VF as a flag. -/
namespace Sys2Proof.Machine
open Sys2Proof

/-- `Annn` LD I, addr (R150). -/
def execLdIAddr (a : Addr) (s : State) : Result := .next (s.setI (addrWord a))

/-- `Fx1E` ADD I, Vx: modulo 65536 (R151). -/
def execAddIVx (x : Reg) (s : State) : Result := .next (s.setI (s.i + byteWord (s.reg x)))

/-- `Fx29` LD F, Vx (R152). -/
def execLdFVx (x : Reg) (s : State) : Result := .next (s.setI (glyphAddr (s.reg x)))

/-- `Fx33` LD B, Vx: three digits at I, I+1, I+2 (R153). -/
def execLdBVx (x : Reg) (s : State) : Result := s.memWrite s.i.toNat (decimalDigits (s.reg x))

/-- `Fx55` LD [I], Vx: V0..Vx at I..I+x (R154). -/
def execLdMemVx (x : Reg) (s : State) : Result := s.memWrite s.i.toNat (s.regsUpTo x)

/-- `Fx65` LD Vx, [I]: V0..Vx from I..I+x (R155). -/
def execLdVxMem (x : Reg) (s : State) : Result :=
  match s.memRead s.i.toNat (x.val + 1) with
  | .ok bs => .next (s.setRegs 0 bs)
  | .error f => raise f

end Sys2Proof.Machine
end

