-- ==== Sys2Proof/Machine/Keys.lean ====
section
/-! DEFINITION. Key instructions and the wait-for-key state (45_keys_timers.md). -/
namespace Sys2Proof.Machine
open Sys2Proof

/-- `Ex9E` SKP Vx (R190). -/
def execSkpVx (x : Reg) (s : State) : Result := .next (s.skipIf (s.keyHeld (keyNumber (s.reg x))))

/-- `ExA1` SKNP Vx (R191). -/
def execSknpVx (x : Reg) (s : State) : Result := .next (s.skipIf (!s.keyHeld (keyNumber (s.reg x))))

/-- The lowest of keys `k, k+1, …` (`n` of them) that is held (R194, D10). -/
def State.lowestHeldFrom (s : State) : Nat → Nat → Option Nat
  | _, 0 => none
  | k, n + 1 => if s.keyHeld k then some k else s.lowestHeldFrom (k + 1) n

/-- The lowest-numbered key of 0..15 that is held. -/
def State.lowestHeld (s : State) : Option Nat := s.lowestHeldFrom 0 16

/-- `KeyWaitPoll(t)`: a held key goes to `V[t]` and ends the wait; with none, nothing changes (R194). -/
def keyWaitPoll (t : Reg) (s : State) : State :=
  match s.lowestHeld with
  | some k => { s.setReg t (BitVec.ofNat 8 k) with wait := { s.wait with active := false } }
  | none => s

/-- The fetch tick of `Fx0A`: poll at once, and wait if no key is held (R193). -/
def keyWaitStart (x : Reg) (s : State) : State :=
  match s.lowestHeld with
  | some _ => keyWaitPoll x s
  | none => { s with wait := { active := true, reg := x } }

/-- `Fx0A` LD Vx, K (R193). The outcome is StillWaiting exactly if the wait is active afterwards (R100). -/
def execLdVxK (x : Reg) (s : State) : Result := .next (keyWaitStart x s)

end Sys2Proof.Machine
end

