-- ==== Sys2Proof/Machine/Timers.lean ====
section
/-! DEFINITION. Timer instructions (45_keys_timers.md), and what ends a tick: tick counting and the timer
decrement (R97, R98). -/
namespace Sys2Proof.Machine
open Sys2Proof

/-- `Fx07` LD Vx, DT: DT before this tick's decrement (R192). -/
def execLdVxDt (x : Reg) (s : State) : Result := .next (s.setReg x s.dt)

/-- `Fx15` LD DT, Vx (R195). -/
def execLdDtVx (x : Reg) (s : State) : Result := .next { s with dt := s.reg x }

/-- `Fx18` LD ST, Vx (R196). -/
def execLdStVx (x : Reg) (s : State) : Result := .next { s with st := s.reg x }

/-- One timer's decrement: never below zero (R98). -/
def timerDown (b : Byte) : Byte := if b.toNat > 0 then b - 1 else b

/-- TICKS is a multiple of CADENCE (R98). -/
def State.timersDue (s : State) : Bool := s.ticks.toNat % s.cfg.cadence == 0

/-- The timer test, made with the new TICKS; each timer is tested separately (R98). -/
def State.stepTimers (s : State) : State :=
  if s.timersDue then { s with dt := timerDown s.dt, st := timerDown s.st } else s

/-- TICKS rises by one modulo 2^64, then the timer test (R97). -/
def State.countTick (s : State) : State := { s with ticks := s.ticks + 1 }.stepTimers

/-- The tick is counted: it completed an instruction, or waiting ticks count too (R97, D11). -/
def State.counted (s : State) : Bool := !s.wait.active || s.cfg.keywaitTimersRun

/-- The end of a tick that raised no error: count it if it is to be counted, and turn to the next tick's input
(R90, R97). -/
def State.endTick (s : State) : State := (if s.counted then s.countTick else s).nextInput

end Sys2Proof.Machine
end

