-- ==== Sys2Proof/Machine/Step.lean ====
section
/-! DEFINITION. The machine's only step, `Tick` (40_tick_cycle.md R90), its outcome (R100, R214), and the fixed
names the host calls. -/
namespace Sys2Proof.Machine
open Sys2Proof

/-- End the tick if its instruction answered a next state; an error or a refusal passes through (R90, R99). -/
def finishTick : Result → Result
  | .next s => .next s.endTick
  | .fault f => .fault f
  | .refused r => .refused r

/-- Decode and execute a fetched word, PC already advanced: the instruction it stands for, else the no-op (R95,
R96). -/
def executeWord (w : Word) (s : State) : Result :=
  match decodeFor s.cfg w with
  | some i => exec i s
  | none => execNop s

/-- `Tick` (R90): the wait poll if the machine waits for a key (R92), else fetch (R93), PC advance (R94), decode
and execute (R95); then the tick is counted (R97, R98). An error leaves the state as it was (R99). A machine that
was never reset is not stepped (R91, R243). -/
def step (s : State) : Host.Outcome State Fault Refusal :=
  if s.hasReset then
    if s.wait.active then .next (keyWaitPoll s.wait.reg s).endTick
    else
      match s.fetchWord with
      | .ok w => finishTick (executeWord w s.advancePc)
      | .error f => raise f
  else .refused .notReset

/-- What a tick reports to its caller (R100). -/
inductive TickOutcome where
  | completed
  | stillWaiting
  | error (f : Fault)
deriving DecidableEq, Repr

/-- The numeric outcome codes (R214, D19). -/
def TickOutcome.code : TickOutcome → Nat
  | .completed => 0
  | .stillWaiting => 1
  | .error (.stackOverflow _) => 2
  | .error (.stackUnderflow _) => 3
  | .error (.memoryOutOfRange _) => 4

/-- The tick as R90 writes it: the new state and the outcome. StillWaiting means the machine waits at the end of the
tick (R100); an error comes with the state the tick started from (R99); `none` before the first reset (R91). -/
def tick (s : State) : Option (State × TickOutcome) :=
  match step s with
  | .next t => some (t, if t.wait.active then .stillWaiting else .completed)
  | .fault f => some (s, .error f)
  | .refused _ => none

/-- `s` with the instruction word `w` stored where the next step fetches: at PC, or at START_OFFSET if PC cannot be
fetched from; no key wait is pending and the machine counts as reset (assumption 21). -/
def State.withFetchWord (s : State) (nbits w : Nat) : State :=
  let pc := if inRange s.pc.toNat 2 then s.pc else s.cfg.startOffset.addr
  { s with
    pc := pc
    wait := { s.wait with active := false }
    hasReset := true
    mem := s.mem.setAll s.cfg.font pc.toNat (wordBytes (BitVec.ofNat 16 (w % 2 ^ nbits))) }

end Sys2Proof.Machine
end

