-- ==== Sys2Proof/Machine/Reset.lean ====
section
/-! DEFINITION. Reset/Load, the machine's only reset (70_reset_and_hazards.md R240 to R243). -/
namespace Sys2Proof.Machine
open Sys2Proof

/-- What reset/load returns. -/
inductive ResetOutcome where
  | ok
  /-- The program is too large for memory from the offset (R241). -/
  | capacityError
deriving DecidableEq, Repr

/-- The capacity check: `START_OFFSET + L <= 4096` (R241). -/
def imageFits (cfg : Config) (image : List Byte) : Bool :=
  decide (cfg.startOffset.addr.toNat + image.length ≤ memSize)

/-- The state a successful reset leaves: everything blank, then the program copied to the offset (R240). The inputs
to come are the environment's and stay (assumption 3). -/
def loadedState (cfg : Config) (image : List Byte) (prior : State) : State :=
  { State.blank cfg with
    mem := Memory.setAll cfg.font [] cfg.startOffset.addr.toNat image
    inputs := prior.inputs
    draws := prior.draws }

/-- Reset/Load: on a capacity error nothing changes (R240, R241). -/
def resetLoad (cfg : Config) (image : List Byte) (prior : State) : State × ResetOutcome :=
  if imageFits cfg image then (loadedState cfg image prior, .ok) else (prior, .capacityError)

end Sys2Proof.Machine
end

