-- ==== Sys2Proof/Safety.lean ====
section
/-! DEFINITION. The terms claims are made in: what a transition leaves unchanged, the invariant of every run from
reset, and what a safe step is. -/
namespace Sys2Proof.Machine
open Sys2Proof

/-- The parts of the state other than the V registers, for frames. -/
inductive StatePart where
  | index | pc | sp | stack | dt | st | ticks | memory | screen | wait | setup | inputs
deriving DecidableEq, Repr

/-- A part is the same in two states; memory is compared by its reads. `setup` is the configuration and the reset
mark; `inputs` is what the environment supplies to the ticks to come. -/
def Same (s t : State) : StatePart → Prop
  | .index => t.i = s.i
  | .pc => t.pc = s.pc
  | .sp => t.sp = s.sp
  | .stack => ∀ j, t.stack.get j = s.stack.get j
  | .dt => t.dt = s.dt
  | .st => t.st = s.st
  | .ticks => t.ticks = s.ticks
  | .memory => ∀ a, t.readByte a = s.readByte a
  | .screen => ∀ r c, t.fb.pixel r c = s.fb.pixel r c
  | .wait => t.wait = s.wait
  | .setup => t.cfg = s.cfg ∧ t.hasReset = s.hasReset
  | .inputs => t.inputs = s.inputs ∧ t.draws = s.draws

/-- Every part but those listed is the same. -/
def SameBut (ps : List StatePart) (s t : State) : Prop := ∀ p, p ∉ ps → Same s t p

/-- Every V register but those listed is the same. -/
def SameRegsBut (rs : List Reg) (s t : State) : Prop := ∀ r, r ∉ rs → t.reg r = s.reg r

/-- A skip instruction's whole effect: 2 more on PC exactly if the condition holds (R94, R114). -/
def SkippedIf (c : Prop) (s t : State) : Prop :=
  (c → t.pc = s.pc + 2) ∧ (¬ c → t.pc = s.pc) ∧ SameRegsBut [] s t ∧ SameBut [.pc] s t

/-- What counting one tick does to TICKS and the timers, from `s` to `t`: TICKS rises by one, and each timer falls by one,
never below zero, exactly if the new TICKS is a multiple of CADENCE (R97, R98). -/
def CountedOnce (s t : State) : Prop :=
  t.ticks = s.ticks + 1 ∧
  (t.ticks.toNat % s.cfg.cadence = 0 → t.dt.toNat = s.dt.toNat - 1 ∧ t.st.toNat = s.st.toNat - 1) ∧
  (t.ticks.toNat % s.cfg.cadence ≠ 0 → t.dt = s.dt ∧ t.st = s.st)

/-- The machine can be stepped and fetches: reset done, no key wait pending, PC at most 4094 (R91, R92, R93). -/
def Fetches (s : State) : Prop := s.hasReset = true ∧ s.wait.active = false ∧ s.pc.toNat ≤ 4094

/-- The word at PC (R52). -/
def wordAtPc (s : State) : Word := s.readByte s.pc.toNat ++ s.readByte (s.pc.toNat + 1)

/-- Key `k` is the lowest-numbered of keys 0..15 that are held in this tick (R194, D10). -/
def LowestHeld (s : State) (k : Nat) : Prop :=
  k < 16 ∧ s.keyHeld k = true ∧ ∀ j, j < k → s.keyHeld j = false

/-- No key of 0..15 is held in this tick. -/
def NoKeyHeld (s : State) : Prop := ∀ k, k < 16 → s.keyHeld k = false

/-- Pixel (row `r`, column `c`) is the one bit `col` of sprite row `row` is drawn to, for a sprite at column `x0` and
row `y0` (R172). -/
def Targets (x0 y0 row col : Nat) (r : Fin 32) (c : Fin 64) : Prop :=
  r.val = (y0 + row) % 32 ∧ c.val = (x0 + col) % 64

/-- What holds after reset and in every state a run reaches: memory is canonical; PC is at most 0x10FE (R23); STACK[0]
is never written and every live entry is a return address, 2 to 4096 (R24, R110, R112); while waiting, PC is past a
fetched `Fx0A` (R31). -/
def Inv (s : State) : Prop :=
  s.mem.wf s.cfg.font = true ∧
  s.pc.toNat ≤ 0x10FE ∧
  s.stack.get 0 = 0 ∧
  (∀ j : Fin 16, 1 ≤ j → j ≤ s.sp → 2 ≤ (s.stack.get j).toNat ∧ (s.stack.get j).toNat ≤ 4096) ∧
  (s.wait.active = true → 2 ≤ s.pc.toNat ∧ s.pc.toNat ≤ 4096)

/-- A step that raises no error. -/
def SafeStep (s : State) : Prop := ∃ t, step s = .next t

/-- `k` steps none of which raises an error: the runs that are not over (R217: a faulted run is never final). -/
def SafeFor : Nat → State → Prop
  | 0, _ => True
  | k + 1, s => ∃ t, step s = .next t ∧ SafeFor k t

end Sys2Proof.Machine
end

