-- ==== Sys2Proof/Certificates/Slice0/Obligations.lean ====
section
/-! DEFINITION. The statements for the provers. In statements about `exec`, the state is the one the instruction
executes in: PC already holds the fetch address + 2 (R94). A decision D<n> that a docstring names is the spec's own
choice where its source is silent (92_eei_decisions.md), followed by the model. -/
open Sys2Proof Sys2Proof.Machine

/-! ### Encoding -/

/-- R70, R71, R75: no operand bit of an encoding is dropped. -/
def Obligations.DecodingAnEncodedInstructionGivesItBack : Prop :=
  ∀ (i : Instr) (rest : List Byte), decodeBytes (encodeBytes i ++ rest) = .ok (i, rest)

/-- R74, R77: every word that decodes is the encoding of what it decodes to, don't-care fields included. -/
def Obligations.EncodingADecodedWordGivesItBack : Prop :=
  ∀ (w : Word) (i : Instr), decodeWord w = some i → encode i = w

/-- R74, R75: a word decodes to an instruction of a row exactly if `(insn & mask) = match` for that row. -/
def Obligations.DecodingFollowsTheOpcodeMap : Prop :=
  ∀ w : Word,
    (∀ i, decodeWord w = some i → i.row.covers w) ∧
    (∀ i : Instr, i.row.covers w → ∃ j, decodeWord w = some j ∧ j.row = i.row)

/-- R75: words of each family written out from the patterns. -/
def Obligations.SampleWordsDecodeAsTheSpecSays : Prop :=
  decodeWord 0x00E0 = some .cls ∧ decodeWord 0x00EE = some .ret ∧ decodeWord 0x1ABC = some (.jpAddr 0xABC) ∧
  decodeWord 0x3A05 = some (.seVxKk 10 0x05) ∧ decodeWord 0x8127 = some (.subnVxVy 1 2) ∧
  decodeWord 0xD01F = some (.drwVxVyN 0 1 15) ∧ decodeWord 0xE1A1 = some (.sknpVx 1) ∧
  decodeWord 0xF365 = some (.ldVxMem 3) ∧ decodeWord 0x8128 = none ∧ decodeWord 0x5121 = none

/-! ### The tick -/

/-- R90, R93 to R95: a tick that fetches runs the decoded instruction with PC advanced by 2 and then ends the tick; an
error of the instruction is the tick's. -/
def Obligations.StepRunsTheDecodedInstruction : Prop :=
  ∀ (s : State) (i : Instr), Fetches s → decodeFor s.cfg (wordAtPc s) = some i →
    (∀ t, exec i { s with pc := s.pc + 2 } = .next t → step s = .next t.endTick) ∧
    (∀ f, exec i { s with pc := s.pc + 2 } = .fault f → step s = .fault f)

/-- R96: an unknown word only advances PC, and the tick is counted. -/
def Obligations.AnUnknownWordIsACountedNoOp : Prop :=
  ∀ s : State, Fetches s → decodeFor s.cfg (wordAtPc s) = none →
    ∃ t, step s = .next t ∧ t.pc = s.pc + 2 ∧ t.ticks = s.ticks + 1 ∧
      (t.ticks.toNat % s.cfg.cadence = 0 → t.dt.toNat = s.dt.toNat - 1 ∧ t.st.toNat = s.st.toNat - 1) ∧
      (t.ticks.toNat % s.cfg.cadence ≠ 0 → t.dt = s.dt ∧ t.st = s.st) ∧
      SameRegsBut [] s t ∧ SameBut [.pc, .ticks, .dt, .st, .inputs] s t

/-- R93 with decision D3: no fetch from above 4094, 4095 included. R99 with decision D4 (assumption 6): the error leaves the
state unchanged. -/
def Obligations.FetchAbove4094RaisesMemoryOutOfRange : Prop :=
  ∀ s : State, s.hasReset = true → s.wait.active = false → 4094 < s.pc.toNat →
    step s = .fault (.memoryOutOfRange s.pc.toNat) ∧
    tick s = some (s, .error (.memoryOutOfRange s.pc.toNat))

/-- R92, R97, R98, R194 with decisions D9 to D11: a waiting tick fetches nothing; it completes with the lowest held key
and is counted, or waits on, and then it is counted exactly if KEYWAIT_TIMERS_RUN. -/
def Obligations.AWaitingTickOnlyPollsTheKeys : Prop :=
  ∀ s : State, s.hasReset = true → s.wait.active = true →
    (∀ k, LowestHeld s k → ∃ t, step s = .next t ∧ tick s = some (t, .completed) ∧
      (t.reg s.wait.reg).toNat = k ∧ t.wait.active = false ∧ t.wait.reg = s.wait.reg ∧ CountedOnce s t ∧
      SameRegsBut [s.wait.reg] s t ∧ SameBut [.wait, .ticks, .dt, .st, .inputs] s t) ∧
    (NoKeyHeld s → ∃ t, step s = .next t ∧ tick s = some (t, .stillWaiting) ∧
      (s.cfg.keywaitTimersRun = true → CountedOnce s t) ∧
      (s.cfg.keywaitTimersRun = false → t.ticks = s.ticks ∧ t.dt = s.dt ∧ t.st = s.st) ∧
      SameRegsBut [] s t ∧ SameBut [.ticks, .dt, .st, .inputs] s t)

/-- R98: the timer test with the new TICKS; each timer falls by one, never below zero. -/
def Obligations.TimersFallWhenTicksReachesAMultipleOfCadence : Prop :=
  ∀ s : State, s.counted = true →
    s.endTick.ticks.toNat = (s.ticks.toNat + 1) % 2 ^ 64 ∧
    (s.endTick.ticks.toNat % s.cfg.cadence = 0 →
      s.endTick.dt.toNat = s.dt.toNat - 1 ∧ s.endTick.st.toNat = s.st.toNat - 1) ∧
    (s.endTick.ticks.toNat % s.cfg.cadence ≠ 0 → s.endTick.dt = s.dt ∧ s.endTick.st = s.st) ∧
    SameRegsBut [] s s.endTick ∧ SameBut [.ticks, .dt, .st, .inputs] s s.endTick

/-- R76: after a reset every word executes; R91, R243 with decision D22: before one, nothing is stepped. -/
def Obligations.OnlyAMachineNeverResetIsRefused : Prop :=
  ∀ s : State,
    (s.hasReset = true → ∀ r, step s ≠ .refused r) ∧
    (s.hasReset = false → step s = .refused .notReset ∧ tick s = none)

/-- R211 to R213, R216: which instruction raises which error, when, and with which recorded value; nothing else. -/
def Obligations.ErrorsAreRaisedExactlyWhereTheSpecSays : Prop :=
  ∀ (i : Instr) (s : State) (f : Fault), exec i s = .fault f ↔
    ((∃ a, i = .callAddr a) ∧ s.sp = 15 ∧ f = .stackOverflow 15) ∨
    (i = .ret ∧ s.sp = 0 ∧ f = .stackUnderflow 0) ∨
    ((∃ x y n, i = .drwVxVyN x y n ∧ 1 ≤ n.val ∧ 4095 < s.i.toNat + n.val - 1) ∧ f = .memoryOutOfRange s.i.toNat) ∨
    ((∃ x, i = .ldBVx x) ∧ 4095 < s.i.toNat + 2 ∧ f = .memoryOutOfRange s.i.toNat) ∨
    ((∃ x : Reg, (i = .ldMemVx x ∨ i = .ldVxMem x) ∧ 4095 < s.i.toNat + x.val) ∧ f = .memoryOutOfRange s.i.toNat)

/-- R99, R217 with decision D4: an error leaves the state of the tick's start, and the next tick raises it again
whatever the environment supplies. -/
def Obligations.AnErrorRepeatsWhateverTheInputs : Prop :=
  ∀ (s : State) (f : Fault), step s = .fault f →
    tick s = some (s, .error f) ∧
    ∀ (inputs : List TickInput) (draws : Nat),
      step { s with inputs := inputs, draws := draws } = .fault f

/-- R102 (a) with decision D20, R80: a jump to itself changes nothing but TICKS and the timers. -/
def Obligations.AJumpToItselfIsAFixedPoint : Prop :=
  ∀ (s : State) (a : Addr), Fetches s → decodeFor s.cfg (wordAtPc s) = some (.jpAddr a) →
    a.toNat = s.pc.toNat →
    ∃ t, step s = .next t ∧ SameRegsBut [] s t ∧ SameBut [.ticks, .dt, .st, .inputs] s t

/-- Every step keeps the invariant: memory in the model's canonical form (assumption 26, the model's choice; no rule states
it), PC at most 0x10FE (R23), STACK[0] never written and live entries return addresses (R24, R110, R112 with decision
D6), PC past the `Fx0A` while waiting (R31 with decision D9). -/
def Obligations.EveryStepKeepsTheInvariant : Prop :=
  ∀ s t : State, Inv s → step s = .next t → Inv t

/-- The invariant holds at reset: its clauses on PC, the stack and the wait from R240 (decisions D6, D9, D21), its
canonical memory from assumption 26, the model's choice, in the configuration of assumption 2. -/
def Obligations.TheInvariantHoldsAtReset : Prop := Inv State.reset

/-- The invariant holds after every successful reset/load, with every configuration and every image: its clauses on PC,
the stack and the wait from R240 (decisions D6, D9, D21), its canonical memory from assumption 26, the model's choice. -/
def Obligations.TheInvariantHoldsAfterEveryLoad : Prop :=
  ∀ (cfg : Config) (image : List Byte) (prior t : State), resetLoad cfg image prior = (t, .ok) → Inv t

/-! ### Whole-machine rules -/

/-- R22 with decision D31 (assumption 17): no instruction other than `Annn`, `Fx1E`, `Fx29` changes I; that `Dxyn`, `Fx33`,
`Fx55` and `Fx65` leave it is the decision. -/
def Obligations.OnlyThreeInstructionsChangeI : Prop :=
  ∀ (i : Instr) (s t : State), exec i s = .next t → t.i ≠ s.i →
    (∃ a, i = .ldIAddr a) ∨ (∃ x, i = .addIVx x) ∨ (∃ x, i = .ldFVx x)

/-- R56: only `Fx33` and `Fx55` write memory, and only `I .. I+2` and `I .. I+x`. -/
def Obligations.OnlyTheTwoStoresChangeMemory : Prop :=
  ∀ (i : Instr) (s t : State) (a : Nat), exec i s = .next t → t.readByte a ≠ s.readByte a →
    (∃ x, i = .ldBVx x ∧ s.i.toNat ≤ a ∧ a ≤ s.i.toNat + 2) ∨
    (∃ x : Reg, i = .ldMemVx x ∧ s.i.toNat ≤ a ∧ a ≤ s.i.toNat + x.val)

/-- R170: the framebuffer is changed only by `00E0` and `Dxyn`. -/
def Obligations.OnlyClearAndDrawChangeTheFrame : Prop :=
  ∀ (i : Instr) (s t : State), exec i s = .next t → t.fb ≠ s.fb →
    i = .cls ∨ ∃ x y n, i = .drwVxVyN x y n

/-- R24, R25: STACK is written by `2nnn` alone, one entry, the one SP then indexes, which is never entry 0; SP is moved by
`2nnn` and `00EE` alone. -/
def Obligations.OnlyCallAndReturnMoveTheStack : Prop :=
  ∀ (i : Instr) (s t : State), exec i s = .next t →
    (∀ j, t.stack.get j ≠ s.stack.get j → (∃ a, i = .callAddr a) ∧ j = t.sp ∧ j ≠ 0) ∧
    (t.sp ≠ s.sp → (∃ a, i = .callAddr a) ∨ i = .ret)

/-- R21: VF changes only as a flag of the six flag producers, or as the destination an instruction names. -/
def Obligations.VfChangesOnlyAsAFlagOrANamedDestination : Prop :=
  ∀ (i : Instr) (s t : State), exec i s = .next t → t.reg vf ≠ s.reg vf →
    (∃ x y, i = .addVxVy x y ∨ i = .subVxVy x y ∨ i = .shrVx x y ∨ i = .subnVxVy x y ∨ i = .shlVx x y) ∨
    (∃ x y n, i = .drwVxVyN x y n) ∨
    (∃ kk, i = .ldVxKk vf kk ∨ i = .addVxKk vf kk ∨ i = .rndVxKk vf kk) ∨
    (∃ y, i = .ldVxVy vf y ∨ i = .orVxVy vf y ∨ i = .andVxVy vf y ∨ i = .xorVxVy vf y) ∨
    i = .ldVxDt vf ∨ i = .ldVxK vf ∨ i = .ldVxMem vf

/-- R94, R23: an instruction other than a control transfer leaves PC at fetch address + 2. -/
def Obligations.OnlyControlTransfersWritePc : Prop :=
  ∀ (i : Instr) (s t : State), exec i s = .next t → t.pc ≠ s.pc →
    i = .ret ∨ (∃ a, i = .jpAddr a ∨ i = .callAddr a ∨ i = .jpV0Addr a) ∨
    (∃ x kk, i = .seVxKk x kk ∨ i = .sneVxKk x kk) ∨ (∃ x y, i = .seVxVy x y ∨ i = .sneVxVy x y) ∨
    (∃ x, i = .skpVx x ∨ i = .sknpVx x)

/-- R26 to R28, R31, R32, R221: DT is written by `Fx15` alone, ST by `Fx18` alone, WAIT by `Fx0A` alone; no instruction
writes TICKS or the configuration, or takes a later tick's input. -/
def Obligations.TimersWaitAndSetupHaveTheirOneWriter : Prop :=
  ∀ (i : Instr) (s t : State), exec i s = .next t →
    (t.dt ≠ s.dt → ∃ x, i = .ldDtVx x) ∧ (t.st ≠ s.st → ∃ x, i = .ldStVx x) ∧
    (t.wait ≠ s.wait → ∃ x, i = .ldVxK x) ∧
    t.ticks = s.ticks ∧ t.cfg = s.cfg ∧ t.hasReset = s.hasReset ∧ t.inputs = s.inputs ∧ t.draws = s.draws

/-- R33, R141, R190, R191, R193: no instruction but `Cxkk`, `Ex9E`, `ExA1`, `Fx0A` depends on what the environment supplies. -/
def Obligations.InputsReachOnlyFourInstructions : Prop :=
  ∀ (i : Instr) (s t : State) (inputs : List TickInput) (draws : Nat),
    (∀ x kk, i ≠ .rndVxKk x kk) → (∀ x, i ≠ .skpVx x ∧ i ≠ .sknpVx x ∧ i ≠ .ldVxK x) →
    exec i s = .next t →
    exec i { s with inputs := inputs, draws := draws } = .next { t with inputs := inputs, draws := draws }

/-! ### Control transfer -/

/-- R111. -/
def Obligations.JumpSetsPcToTheAddress : Prop :=
  ∀ (a : Addr) (s : State),
    decodeWord (fmtNNN 0x1 a) = some (.jpAddr a) ∧
    ∃ t, exec (.jpAddr a) s = .next t ∧ t.pc.toNat = a.toNat ∧ SameRegsBut [] s t ∧ SameBut [.pc] s t

/-- R113: the sum is not reduced modulo 4096. -/
def Obligations.JumpWithOffsetAddsV0 : Prop :=
  ∀ (a : Addr) (s : State),
    decodeWord (fmtNNN 0xB a) = some (.jpV0Addr a) ∧
    ∃ t, exec (.jpV0Addr a) s = .next t ∧ t.pc.toNat = a.toNat + (s.reg 0).toNat ∧
      SameRegsBut [] s t ∧ SameBut [.pc] s t

/-- R112 with decision D6: SP rises first, then the advanced PC is pushed; at SP = 15 StackOverflow. -/
def Obligations.CallPushesTheReturnAddress : Prop :=
  ∀ (a : Addr) (s : State),
    decodeWord (fmtNNN 0x2 a) = some (.callAddr a) ∧
    (s.sp ≠ 15 → ∃ t, exec (.callAddr a) s = .next t ∧ t.sp.val = s.sp.val + 1 ∧ t.stack.get t.sp = s.pc ∧
      (∀ j, j ≠ t.sp → t.stack.get j = s.stack.get j) ∧ t.pc.toNat = a.toNat ∧
      SameRegsBut [] s t ∧ SameBut [.pc, .sp, .stack] s t) ∧
    (s.sp = 15 → exec (.callAddr a) s = .fault (.stackOverflow 15))

/-- R110 with decision D6: PC is the entry at SP, then SP falls; at SP = 0 StackUnderflow. -/
def Obligations.ReturnPopsTheReturnAddress : Prop :=
  ∀ s : State,
    decodeWord 0x00EE = some .ret ∧
    (s.sp ≠ 0 → ∃ t, exec .ret s = .next t ∧ t.pc = s.stack.get s.sp ∧ t.sp.val + 1 = s.sp.val ∧
      SameRegsBut [] s t ∧ SameBut [.pc, .sp] s t) ∧
    (s.sp = 0 → exec .ret s = .fault (.stackUnderflow 0))

/-- R112 (CH8's round-trip property, 95_test_vectors.md W8): a return after a call comes back to the instruction after
it, whatever ran between as long as it left SP and that entry as they were. -/
def Obligations.ReturnAfterCallComesBack : Prop :=
  ∀ (a : Addr) (s t u : State), exec (.callAddr a) s = .next t →
    u.sp = t.sp → u.stack.get u.sp = t.stack.get t.sp →
    ∃ w, exec .ret u = .next w ∧ w.pc = s.pc ∧ w.sp = s.sp

/-- R114, R115. -/
def Obligations.SkipsOnAnImmediate : Prop :=
  ∀ (x : Reg) (kk : Byte) (s : State),
    decodeWord (fmtXKK 0x3 x kk) = some (.seVxKk x kk) ∧ decodeWord (fmtXKK 0x4 x kk) = some (.sneVxKk x kk) ∧
    (∃ t, exec (.seVxKk x kk) s = .next t ∧ SkippedIf (s.reg x = kk) s t) ∧
    (∃ t, exec (.sneVxKk x kk) s = .next t ∧ SkippedIf (s.reg x ≠ kk) s t)

/-- R116, R117; the words `5xyN` and `9xyN` with N other than 0 are no instructions (decision D18). -/
def Obligations.SkipsOnTwoRegisters : Prop :=
  ∀ (x y : Reg) (s : State),
    decodeWord (fmtXYS 0x5 x y 0x0) = some (.seVxVy x y) ∧ decodeWord (fmtXYS 0x9 x y 0x0) = some (.sneVxVy x y) ∧
    (∃ t, exec (.seVxVy x y) s = .next t ∧ SkippedIf (s.reg x = s.reg y) s t) ∧
    (∃ t, exec (.sneVxVy x y) s = .next t ∧ SkippedIf (s.reg x ≠ s.reg y) s t) ∧
    (∀ k : BitVec 4, k ≠ 0 → decodeWord (fmtXYS 0x5 x y k) = none ∧ decodeWord (fmtXYS 0x9 x y k) = none)

/-- R94 (CH8's property, 95_test_vectors.md W7): a tick that runs `3xkk` moves PC by 4 if the condition holds, else by 2,
and is counted. -/
def Obligations.ASkipTickMovesPcByFourOrTwo : Prop :=
  ∀ (s : State) (x : Reg) (kk : Byte), Fetches s → decodeFor s.cfg (wordAtPc s) = some (.seVxKk x kk) →
    ∃ t, step s = .next t ∧ t.pc.toNat = s.pc.toNat + (if s.reg x = kk then 4 else 2) ∧ t.ticks = s.ticks + 1

/-! ### Registers and ALU -/

/-- R130, R132. -/
def Obligations.LoadsCopyAnImmediateOrARegister : Prop :=
  ∀ (x y : Reg) (kk : Byte) (s : State),
    decodeWord (fmtXKK 0x6 x kk) = some (.ldVxKk x kk) ∧ decodeWord (fmtXYS 0x8 x y 0x0) = some (.ldVxVy x y) ∧
    (∃ t, exec (.ldVxKk x kk) s = .next t ∧ t.reg x = kk ∧ SameRegsBut [x] s t ∧ SameBut [] s t) ∧
    (∃ t, exec (.ldVxVy x y) s = .next t ∧ t.reg x = s.reg y ∧ SameRegsBut [x] s t ∧ SameBut [] s t)

/-- R131, decision D32 for VF: no flag. -/
def Obligations.AddImmediateWrapsAndSetsNoFlag : Prop :=
  ∀ (x : Reg) (kk : Byte) (s : State),
    decodeWord (fmtXKK 0x7 x kk) = some (.addVxKk x kk) ∧
    ∃ t, exec (.addVxKk x kk) s = .next t ∧ (t.reg x).toNat = ((s.reg x).toNat + kk.toNat) % 256 ∧
      SameRegsBut [x] s t ∧ SameBut [] s t

/-- R133 to R135, bit by bit; decision D32 for VF: no flag. -/
def Obligations.LogicIsBitwiseAndSetsNoFlag : Prop :=
  ∀ (x y : Reg) (s : State),
    (∃ t, exec (.orVxVy x y) s = .next t ∧
      (∀ k, (t.reg x).getLsbD k = ((s.reg x).getLsbD k || (s.reg y).getLsbD k)) ∧
      SameRegsBut [x] s t ∧ SameBut [] s t) ∧
    (∃ t, exec (.andVxVy x y) s = .next t ∧
      (∀ k, (t.reg x).getLsbD k = ((s.reg x).getLsbD k && (s.reg y).getLsbD k)) ∧
      SameRegsBut [x] s t ∧ SameBut [] s t) ∧
    (∃ t, exec (.xorVxVy x y) s = .next t ∧
      (∀ k, (t.reg x).getLsbD k = xor ((s.reg x).getLsbD k) ((s.reg y).getLsbD k)) ∧
      SameRegsBut [x] s t ∧ SameBut [] s t)

/-- R136: result first, carry last, so with `x = 0xF` the carry stands (decision D7). -/
def Obligations.AddRegistersReportsTheCarry : Prop :=
  ∀ (x y : Reg) (s : State),
    decodeWord (fmtXYS 0x8 x y 0x4) = some (.addVxVy x y) ∧
    ∃ t, exec (.addVxVy x y) s = .next t ∧
      t.reg vf = (if (s.reg x).toNat + (s.reg y).toNat > 255 then 1 else 0) ∧
      (x ≠ vf → (t.reg x).toNat = ((s.reg x).toNat + (s.reg y).toNat) % 256) ∧
      SameRegsBut [x, vf] s t ∧ SameBut [] s t

/-- R137: flag first, difference last, so with `x = 0xF` the difference stands (decision D7). -/
def Obligations.SubtractReportsNotBorrow : Prop :=
  ∀ (x y : Reg) (s : State),
    decodeWord (fmtXYS 0x8 x y 0x5) = some (.subVxVy x y) ∧
    ∃ t, exec (.subVxVy x y) s = .next t ∧
      (t.reg x).toNat = ((s.reg x).toNat + 256 - (s.reg y).toNat) % 256 ∧
      (x ≠ vf → t.reg vf = (if (s.reg x).toNat ≥ (s.reg y).toNat then 1 else 0)) ∧
      SameRegsBut [x, vf] s t ∧ SameBut [] s t

/-- R139: the destination is Vy, the flag is not-borrow of Vy - Vx; flag first, difference last (decision
D7). -/
def Obligations.ReverseSubtractWritesVy : Prop :=
  ∀ (x y : Reg) (s : State),
    decodeWord (fmtXYS 0x8 x y 0x7) = some (.subnVxVy x y) ∧
    ∃ t, exec (.subnVxVy x y) s = .next t ∧
      (t.reg y).toNat = ((s.reg y).toNat + 256 - (s.reg x).toNat) % 256 ∧
      (y ≠ vf → t.reg vf = (if (s.reg y).toNat ≥ (s.reg x).toNat then 1 else 0)) ∧
      SameRegsBut [y, vf] s t ∧ SameBut [] s t

/-- R138, R140, R77: one position, Vy ignored; flag first, shifted value last (decision D7). -/
def Obligations.ShiftsReportTheBitShiftedOut : Prop :=
  ∀ (x y : Reg) (s : State),
    decodeWord (fmtXYS 0x8 x y 0x6) = some (.shrVx x y) ∧ decodeWord (fmtXYS 0x8 x y 0xE) = some (.shlVx x y) ∧
    (∃ t, exec (.shrVx x y) s = .next t ∧ (t.reg x).toNat = (s.reg x).toNat / 2 ∧
      (x ≠ vf → (t.reg vf).toNat = (s.reg x).toNat % 2) ∧ SameRegsBut [x, vf] s t ∧ SameBut [] s t) ∧
    (∃ t, exec (.shlVx x y) s = .next t ∧ (t.reg x).toNat = 2 * (s.reg x).toNat % 256 ∧
      (x ≠ vf → (t.reg vf).toNat = (s.reg x).toNat / 128) ∧ SameRegsBut [x, vf] s t ∧ SameBut [] s t)

/-- R141 with decision D13: the tick's random byte, whichever it is, masked; a supplied one is the environment's. -/
def Obligations.RandomIsTheMaskedByteOfTheTick : Prop :=
  ∀ (x : Reg) (kk : Byte) (s : State),
    decodeWord (fmtXKK 0xC x kk) = some (.rndVxKk x kk) ∧
    (∃ t, exec (.rndVxKk x kk) s = .next t ∧ t.reg x = s.random &&& kk ∧ SameRegsBut [x] s t ∧ SameBut [] s t) ∧
    (∀ r rest, s.inputs = r :: rest → s.random = r.random)

/-! ### Address register and memory -/

/-- R150 with decision D8, R151 with decisions D14 and D32: `Annn` and `Fx1E`; with ANNN_DEFINED off no word `Annn` is an
instruction. -/
def Obligations.AddressRegisterLoadAndAdd : Prop :=
  (∀ (a : Addr) (s : State),
    ∃ t, exec (.ldIAddr a) s = .next t ∧ t.i.toNat = a.toNat ∧ SameRegsBut [] s t ∧ SameBut [.index] s t) ∧
  (∀ (x : Reg) (s : State),
    ∃ t, exec (.addIVx x) s = .next t ∧ t.i.toNat = (s.i.toNat + (s.reg x).toNat) % 65536 ∧
      SameRegsBut [] s t ∧ SameBut [.index] s t) ∧
  (∀ (cfg : Config) (a : Addr),
    decodeFor cfg (fmtNNN 0xA a) = if cfg.annnDefined then some (.ldIAddr a) else none)

/-- R152: the whole byte, times 5. -/
def Obligations.FontAddressIsFiveTimesVx : Prop :=
  ∀ (x : Reg) (s : State),
    decodeWord (fmtXKK 0xF x 0x29) = some (.ldFVx x) ∧
    ∃ t, exec (.ldFVx x) s = .next t ∧ t.i.toNat = (s.reg x).toNat * 5 ∧ SameRegsBut [] s t ∧ SameBut [.index] s t

/-- R153 with decisions D2, D5 and D31: three digits at I, I+1, I+2, or MemoryOutOfRange before any byte is written. -/
def Obligations.DecimalDigitsAreStoredAtI : Prop :=
  ∀ (x : Reg) (s : State),
    decodeWord (fmtXKK 0xF x 0x33) = some (.ldBVx x) ∧
    (s.i.toNat ≤ 4093 → ∃ t, exec (.ldBVx x) s = .next t ∧
      (t.readByte s.i.toNat).toNat = (s.reg x).toNat / 100 ∧
      (t.readByte (s.i.toNat + 1)).toNat = (s.reg x).toNat / 10 % 10 ∧
      (t.readByte (s.i.toNat + 2)).toNat = (s.reg x).toNat % 10 ∧
      (∀ a, a < s.i.toNat ∨ s.i.toNat + 2 < a → t.readByte a = s.readByte a) ∧
      SameRegsBut [] s t ∧ SameBut [.memory] s t) ∧
    (4093 < s.i.toNat → exec (.ldBVx x) s = .fault (.memoryOutOfRange s.i.toNat))

/-- R154, decision D31 for I: V0..Vx at I..I+x, or MemoryOutOfRange before any byte is written. -/
def Obligations.RegistersAreStoredAtI : Prop :=
  ∀ (x : Reg) (s : State),
    decodeWord (fmtXKK 0xF x 0x55) = some (.ldMemVx x) ∧
    (s.i.toNat + x.val ≤ 4095 → ∃ t, exec (.ldMemVx x) s = .next t ∧
      (∀ j : Reg, j ≤ x → t.readByte (s.i.toNat + j.val) = s.reg j) ∧
      (∀ a, a < s.i.toNat ∨ s.i.toNat + x.val < a → t.readByte a = s.readByte a) ∧
      SameRegsBut [] s t ∧ SameBut [.memory] s t) ∧
    (4095 < s.i.toNat + x.val → exec (.ldMemVx x) s = .fault (.memoryOutOfRange s.i.toNat))

/-- R155, decision D31 for I: V0..Vx from I..I+x, or MemoryOutOfRange before any register is written. -/
def Obligations.RegistersAreLoadedFromI : Prop :=
  ∀ (x : Reg) (s : State),
    decodeWord (fmtXKK 0xF x 0x65) = some (.ldVxMem x) ∧
    (s.i.toNat + x.val ≤ 4095 → ∃ t, exec (.ldVxMem x) s = .next t ∧
      (∀ j : Reg, j ≤ x → t.reg j = s.readByte (s.i.toNat + j.val)) ∧
      (∀ j : Reg, x < j → t.reg j = s.reg j) ∧ SameBut [] s t) ∧
    (4095 < s.i.toNat + x.val → exec (.ldVxMem x) s = .fault (.memoryOutOfRange s.i.toNat))

/-- R58, R154, R155: registers stored by `Fx55` come back by `Fx65` with the same I and x, whatever the registers hold by
then. -/
def Obligations.StoredRegistersComeBack : Prop :=
  ∀ (x : Reg) (s t u : State), exec (.ldMemVx x) s = .next t → u.i = s.i → (∀ a, u.readByte a = t.readByte a) →
    ∃ w, exec (.ldVxMem x) u = .next w ∧ ∀ j : Reg, j ≤ x → w.reg j = s.reg j

/-- R60: the fetch sees what `Fx55` stored, with nothing needed in between. -/
def Obligations.AStoreIsSeenByTheNextFetch : Prop :=
  ∀ (x j k : Reg) (s t : State), exec (.ldMemVx x) s = .next t → k.val = j.val + 1 → k ≤ x →
    t.pc.toNat = s.i.toNat + j.val → t.fetchWord = .ok (s.reg j ++ s.reg k : Word)

/-- The model's canonical form (assumption 26): two memories in it that read the same are the same data. -/
def Obligations.CanonicalMemoriesThatReadTheSameAreEqual : Prop :=
  ∀ (font : List Byte) (m m' : Memory), m.wf font = true → m'.wf font = true →
    (∀ a, Memory.get font m a = Memory.get font m' a) → m = m'

/-! ### Display -/

/-- R171. -/
def Obligations.ClearTurnsEveryPixelOff : Prop :=
  ∀ s : State,
    decodeWord 0x00E0 = some .cls ∧
    ∃ t, exec .cls s = .next t ∧ (∀ r c, t.fb.pixel r c = false) ∧ SameRegsBut [] s t ∧ SameBut [.screen] s t

/-- R173, R172 with decision D27: every targeted pixel is XORed with its bit of the frame as it was, every other pixel
stays, VF is 1 exactly if a 1 bit met an on pixel; out of range MemoryOutOfRange. -/
def Obligations.DrawXorsTheSpriteAndReportsCollision : Prop :=
  ∀ (x y : Reg) (n : RowCount) (s : State),
    decodeWord (fmtXYS 0xD x y (nib n)) = some (.drwVxVyN x y n) ∧
    (n = 0 ∨ s.i.toNat + n.val - 1 ≤ 4095 → ∃ t, exec (.drwVxVyN x y n) s = .next t ∧
      (∀ row col r c, row < n.val → col < 8 → Targets (s.reg x).toNat (s.reg y).toNat row col r c →
        t.fb.pixel r c = xor (s.fb.pixel r c) ((s.readByte (s.i.toNat + row)).getLsbD (7 - col))) ∧
      (∀ r c, (∀ row col, row < n.val → col < 8 → ¬ Targets (s.reg x).toNat (s.reg y).toNat row col r c) →
        t.fb.pixel r c = s.fb.pixel r c) ∧
      ((∃ row col r c, row < n.val ∧ col < 8 ∧ Targets (s.reg x).toNat (s.reg y).toNat row col r c ∧
        s.fb.pixel r c = true ∧ (s.readByte (s.i.toNat + row)).getLsbD (7 - col) = true) → t.reg vf = 1) ∧
      ((∀ row col r c, row < n.val → col < 8 → Targets (s.reg x).toNat (s.reg y).toNat row col r c →
        s.fb.pixel r c = true → (s.readByte (s.i.toNat + row)).getLsbD (7 - col) = false) → t.reg vf = 0) ∧
      SameRegsBut [vf] s t ∧ SameBut [.screen] s t) ∧
    (n ≠ 0 → 4095 < s.i.toNat + n.val - 1 → exec (.drwVxVyN x y n) s = .fault (.memoryOutOfRange s.i.toNat))

/-- R172 (e) (CH8's property, 95_test_vectors.md W1): drawing the same sprite twice restores the frame, and the second
draw collides exactly if a 1 bit lies on a pixel that was off before the first. -/
def Obligations.DrawingTwiceRestoresTheFrame : Prop :=
  ∀ (x y : Reg) (n : RowCount) (s t : State), x ≠ vf → y ≠ vf → exec (.drwVxVyN x y n) s = .next t →
    ∃ u, exec (.drwVxVyN x y n) t = .next u ∧ (∀ r c, u.fb.pixel r c = s.fb.pixel r c) ∧
      (u.reg vf = 1 ↔ ∃ row col r c, row < n.val ∧ col < 8 ∧
        Targets (s.reg x).toNat (s.reg y).toNat row col r c ∧
        s.fb.pixel r c = false ∧ (s.readByte (s.i.toNat + row)).getLsbD (7 - col) = true)

/-! ### Keys and timers -/

/-- R190, R191: the key number is the value of Vx; for 0..15 the environment's answer, above 15 the free one (decision
D12); the other words `Exkk` are no instructions (decision D18). -/
def Obligations.KeySkipsFollowTheKeyNumberedVx : Prop :=
  ∀ (x : Reg) (s : State),
    decodeWord (fmtXKK 0xE x 0x9E) = some (.skpVx x) ∧ decodeWord (fmtXKK 0xE x 0xA1) = some (.sknpVx x) ∧
    (∃ t, exec (.skpVx x) s = .next t ∧ SkippedIf (s.keyHeld (s.reg x).toNat = true) s t) ∧
    (∃ t, exec (.sknpVx x) s = .next t ∧ SkippedIf (s.keyHeld (s.reg x).toNat = false) s t) ∧
    (∀ r rest k, s.inputs = r :: rest → k < 16 → s.keyHeld k = r.keys.getLsbD k) ∧
    (∀ kk : Byte, kk ≠ 0x9E → kk ≠ 0xA1 → decodeWord (fmtXKK 0xE x kk) = none)

/-- R193, R194 with decisions D9 and D10: the lowest held key at once, else the wait begins. -/
def Obligations.WaitForKeyTakesTheLowestHeldKeyOrWaits : Prop :=
  ∀ (x : Reg) (s : State),
    decodeWord (fmtXKK 0xF x 0x0A) = some (.ldVxK x) ∧
    (∀ k, LowestHeld s k → ∃ t, exec (.ldVxK x) s = .next t ∧ (t.reg x).toNat = k ∧
      t.wait.active = false ∧ t.wait.reg = s.wait.reg ∧ SameRegsBut [x] s t ∧ SameBut [.wait] s t) ∧
    (NoKeyHeld s → ∃ t, exec (.ldVxK x) s = .next t ∧ t.wait.active = true ∧ t.wait.reg = x ∧
      SameRegsBut [] s t ∧ SameBut [.wait] s t)

/-- R192, R195, R196. -/
def Obligations.TimersAreReadAndSetThroughVx : Prop :=
  ∀ (x : Reg) (s : State),
    decodeWord (fmtXKK 0xF x 0x07) = some (.ldVxDt x) ∧ decodeWord (fmtXKK 0xF x 0x15) = some (.ldDtVx x) ∧
    decodeWord (fmtXKK 0xF x 0x18) = some (.ldStVx x) ∧
    (∃ t, exec (.ldVxDt x) s = .next t ∧ t.reg x = s.dt ∧ SameRegsBut [x] s t ∧ SameBut [] s t) ∧
    (∃ t, exec (.ldDtVx x) s = .next t ∧ t.dt = s.reg x ∧ SameRegsBut [] s t ∧ SameBut [.dt] s t) ∧
    (∃ t, exec (.ldStVx x) s = .next t ∧ t.st = s.reg x ∧ SameRegsBut [] s t ∧ SameBut [.st] s t)

/-- R246: a timer written in a decrementing tick loses one count at once, DT set by `Fx15` and ST set by `Fx18`. -/
def Obligations.ATimerSetInADecrementingTickLosesOneCount : Prop :=
  ∀ (s : State) (x : Reg), Fetches s →
    (decodeFor s.cfg (wordAtPc s) = some (.ldDtVx x) →
      ∃ t, step s = .next t ∧ t.ticks = s.ticks + 1 ∧
        (t.ticks.toNat % s.cfg.cadence = 0 → t.dt.toNat = (s.reg x).toNat - 1) ∧
        (t.ticks.toNat % s.cfg.cadence ≠ 0 → t.dt = s.reg x)) ∧
    (decodeFor s.cfg (wordAtPc s) = some (.ldStVx x) →
      ∃ t, step s = .next t ∧ t.ticks = s.ticks + 1 ∧
        (t.ticks.toNat % s.cfg.cadence = 0 → t.st.toNat = (s.reg x).toNat - 1) ∧
        (t.ticks.toNat % s.cfg.cadence ≠ 0 → t.st = s.reg x))

/-! ### Reset -/

/-- R35, R240 with decisions D17 and D21: every value reset leaves, whatever the state before. -/
def Obligations.LoadLeavesTheResetValues : Prop :=
  ∀ (cfg : Config) (image : List Byte) (prior : State), cfg.startOffset.addr.toNat + image.length ≤ 4096 →
    ∃ t, resetLoad cfg image prior = (t, .ok) ∧ (∀ r, t.reg r = 0) ∧ t.i = 0 ∧ t.pc = cfg.startOffset.addr ∧
      t.sp = 0 ∧ (∀ j, t.stack.get j = 0) ∧ t.dt = 0 ∧ t.st = 0 ∧ t.ticks = 0 ∧
      (∀ r c, t.fb.pixel r c = false) ∧ t.wait.active = false ∧ t.wait.reg = 0 ∧ t.hasReset = true ∧ t.cfg = cfg ∧
      (∀ a, a < cfg.font.length → t.readByte a = cfg.font.getD a 0) ∧
      (∀ j, j < image.length → t.readByte (cfg.startOffset.addr.toNat + j) = image.getD j 0) ∧
      (∀ a, cfg.font.length ≤ a → a < cfg.startOffset.addr.toNat → t.readByte a = 0) ∧
      (∀ a, cfg.startOffset.addr.toNat + image.length ≤ a → t.readByte a = 0)

/-- R241: the capacity check; a failed load changes nothing, a load that fits copies the image byte for byte over a
memory of font and zeros, and 3584 and 2560 bytes are the largest images. -/
def Obligations.ATooLargeImageChangesNothing : Prop :=
  ∀ (cfg : Config) (image : List Byte) (prior : State),
    (4096 < cfg.startOffset.addr.toNat + image.length → resetLoad cfg image prior = (prior, .capacityError)) ∧
    (cfg.startOffset.addr.toNat + image.length ≤ 4096 → ∃ t, resetLoad cfg image prior = (t, .ok) ∧
      (∀ j, j < image.length → t.readByte (cfg.startOffset.addr.toNat + j) = image.getD j 0) ∧
      ∀ a, a < cfg.startOffset.addr.toNat ∨ cfg.startOffset.addr.toNat + image.length ≤ a →
        t.readByte a = cfg.font.getD a 0) ∧
    (cfg.startOffset = .chip8 → ((resetLoad cfg image prior).2 = .ok ↔ image.length ≤ 3584)) ∧
    (cfg.startOffset = .eti660 → ((resetLoad cfg image prior).2 = .ok ↔ image.length ≤ 2560))

/-- R242: the first tick fetches the first two bytes of the image, zero for each one the image lacks (vector RS4,
assumption 25). -/
def Obligations.TheFirstFetchReadsTheImage : Prop :=
  ∀ (cfg : Config) (image : List Byte) (prior t : State), resetLoad cfg image prior = (t, .ok) →
    t.pc = cfg.startOffset.addr ∧ t.fetchWord = .ok (image.getD 0 0 ++ image.getD 1 0 : Word)
end

