-- ==== Sys2Proof/Laws/Decode.lean ====
section
/-! SUPPORT. The fields of a word laid out by the encoder's formats, and the bytes of a word. -/
namespace Sys2Proof

@[simp] theorem n1_fmtNNN (f : BitVec 4) (a : Addr) : n1 (fmtNNN f a) = f := by
  ext i hi
  rw [n1, fmtNNN, BitVec.getElem_extractLsb']
  change BitVec.getLsbD (w := 4 + 12) _ _ = _
  rw [BitVec.getLsbD_append, if_neg (by omega), show 12 + i - 12 = i by omega, BitVec.getLsbD_eq_getElem hi]

@[simp] theorem fieldAddr_fmtNNN (f : BitVec 4) (a : Addr) : fieldAddr (fmtNNN f a) = a := by
  ext i hi
  rw [fieldAddr, fmtNNN, BitVec.getElem_extractLsb']
  change BitVec.getLsbD (w := 4 + 12) _ _ = _
  rw [BitVec.getLsbD_append, if_pos (by omega), show 0 + i = i by omega, BitVec.getLsbD_eq_getElem hi]

@[simp] theorem n1_fmtXKK (f : BitVec 4) (x : Reg) (kk : Byte) : n1 (fmtXKK f x kk) = f := by
  ext i hi
  rw [n1, fmtXKK, BitVec.getElem_extractLsb']
  change BitVec.getLsbD (w := 4 + 4 + 8) _ _ = _
  rw [BitVec.getLsbD_append, if_neg (by omega), BitVec.getLsbD_append, if_neg (by omega), show 12 + i - 8 - 4 = i by omega, BitVec.getLsbD_eq_getElem hi]

@[simp] theorem n2_fmtXKK (f : BitVec 4) (x : Reg) (kk : Byte) : n2 (fmtXKK f x kk) = nib x := by
  ext i hi
  rw [n2, fmtXKK, BitVec.getElem_extractLsb']
  change BitVec.getLsbD (w := 4 + 4 + 8) _ _ = _
  rw [BitVec.getLsbD_append, if_neg (by omega), BitVec.getLsbD_append, if_pos (by omega), show 8 + i - 8 = i by omega, BitVec.getLsbD_eq_getElem hi]

@[simp] theorem fieldKk_fmtXKK (f : BitVec 4) (x : Reg) (kk : Byte) : fieldKk (fmtXKK f x kk) = kk := by
  ext i hi
  rw [fieldKk, fmtXKK, BitVec.getElem_extractLsb']
  change BitVec.getLsbD (w := 4 + 4 + 8) _ _ = _
  rw [BitVec.getLsbD_append, if_pos (by omega), show 0 + i = i by omega, BitVec.getLsbD_eq_getElem hi]

@[simp] theorem n1_fmtXYS (f : BitVec 4) (x y : Reg) (k : BitVec 4) : n1 (fmtXYS f x y k) = f := by
  ext i hi
  rw [n1, fmtXYS, BitVec.getElem_extractLsb']
  change BitVec.getLsbD (w := 4 + 4 + 4 + 4) _ _ = _
  rw [BitVec.getLsbD_append, if_neg (by omega), BitVec.getLsbD_append, if_neg (by omega), BitVec.getLsbD_append, if_neg (by omega), show 12 + i - 4 - 4 - 4 = i by omega, BitVec.getLsbD_eq_getElem hi]

@[simp] theorem n2_fmtXYS (f : BitVec 4) (x y : Reg) (k : BitVec 4) : n2 (fmtXYS f x y k) = nib x := by
  ext i hi
  rw [n2, fmtXYS, BitVec.getElem_extractLsb']
  change BitVec.getLsbD (w := 4 + 4 + 4 + 4) _ _ = _
  rw [BitVec.getLsbD_append, if_neg (by omega), BitVec.getLsbD_append, if_neg (by omega), BitVec.getLsbD_append, if_pos (by omega), show 8 + i - 4 - 4 = i by omega, BitVec.getLsbD_eq_getElem hi]

@[simp] theorem n3_fmtXYS (f : BitVec 4) (x y : Reg) (k : BitVec 4) : n3 (fmtXYS f x y k) = nib y := by
  ext i hi
  rw [n3, fmtXYS, BitVec.getElem_extractLsb']
  change BitVec.getLsbD (w := 4 + 4 + 4 + 4) _ _ = _
  rw [BitVec.getLsbD_append, if_neg (by omega), BitVec.getLsbD_append, if_pos (by omega), show 4 + i - 4 = i by omega, BitVec.getLsbD_eq_getElem hi]

@[simp] theorem n4_fmtXYS (f : BitVec 4) (x y : Reg) (k : BitVec 4) : n4 (fmtXYS f x y k) = k := by
  ext i hi
  rw [n4, fmtXYS, BitVec.getElem_extractLsb']
  change BitVec.getLsbD (w := 4 + 4 + 4 + 4) _ _ = _
  rw [BitVec.getLsbD_append, if_pos (by omega), show 0 + i = i by omega, BitVec.getLsbD_eq_getElem hi]

@[simp] theorem nib_toFin (r : Fin 16) : (nib r).toFin = r := rfl

@[simp] theorem fieldX_fmtXKK (f : BitVec 4) (x : Reg) (kk : Byte) : fieldX (fmtXKK f x kk) = x := by
  simp [fieldX]
@[simp] theorem fieldX_fmtXYS (f : BitVec 4) (x y : Reg) (k : BitVec 4) : fieldX (fmtXYS f x y k) = x := by
  simp [fieldX]
@[simp] theorem fieldY_fmtXYS (f : BitVec 4) (x y : Reg) (k : BitVec 4) : fieldY (fmtXYS f x y k) = y := by
  simp [fieldY]
@[simp] theorem fieldN_fmtXYS (f : BitVec 4) (x y : Reg) (n : RowCount) :
    fieldN (fmtXYS f x y (nib n)) = n := by
  simp [fieldN]

/-- The two bytes of a word, put together again. -/
@[simp] theorem append_wordBytes (w : Word) : (w.extractLsb' 8 8 ++ w.extractLsb' 0 8 : Word) = w := by
  ext i hi
  simp only [BitVec.getElem_append, BitVec.getElem_extractLsb']
  split
  · simp [BitVec.getLsbD_eq_getElem hi]
  · rw [show 8 + (i - 8) = i by omega, BitVec.getLsbD_eq_getElem hi]

theorem decodeFor_eq_some {cfg : Config} {w : Word} {i : Instr} :
    decodeFor cfg w = some i ↔ decodeWord w = some i ∧ i.wellFormed cfg = true := by
  unfold decodeFor
  cases decodeWord w with
  | none => simp
  | some j => by_cases h : j.wellFormed cfg = true <;> simp [h] <;> rintro rfl <;> simp_all

end Sys2Proof
end

