-- ==== Sys2Proof/Laws/State.lean ====
section
/-! SUPPORT. One lemma per field per update of State, so that no proof unfolds a record update. -/
namespace Sys2Proof.Machine
open Sys2Proof

/-! ### setReg -/

@[simp] theorem State.setReg_v (s : State) (r : Reg) (b : Byte) : (s.setReg r b).v = s.v.set r b := rfl
@[simp] theorem State.setReg_i (s : State) (r : Reg) (b : Byte) : (s.setReg r b).i = s.i := rfl
@[simp] theorem State.setReg_pc (s : State) (r : Reg) (b : Byte) : (s.setReg r b).pc = s.pc := rfl
@[simp] theorem State.setReg_stack (s : State) (r : Reg) (b : Byte) : (s.setReg r b).stack = s.stack := rfl
@[simp] theorem State.setReg_sp (s : State) (r : Reg) (b : Byte) : (s.setReg r b).sp = s.sp := rfl
@[simp] theorem State.setReg_dt (s : State) (r : Reg) (b : Byte) : (s.setReg r b).dt = s.dt := rfl
@[simp] theorem State.setReg_st (s : State) (r : Reg) (b : Byte) : (s.setReg r b).st = s.st := rfl
@[simp] theorem State.setReg_ticks (s : State) (r : Reg) (b : Byte) : (s.setReg r b).ticks = s.ticks := rfl
@[simp] theorem State.setReg_mem (s : State) (r : Reg) (b : Byte) : (s.setReg r b).mem = s.mem := rfl
@[simp] theorem State.setReg_fb (s : State) (r : Reg) (b : Byte) : (s.setReg r b).fb = s.fb := rfl
@[simp] theorem State.setReg_wait (s : State) (r : Reg) (b : Byte) : (s.setReg r b).wait = s.wait := rfl
@[simp] theorem State.setReg_hasReset (s : State) (r : Reg) (b : Byte) : (s.setReg r b).hasReset = s.hasReset := rfl
@[simp] theorem State.setReg_cfg (s : State) (r : Reg) (b : Byte) : (s.setReg r b).cfg = s.cfg := rfl
@[simp] theorem State.setReg_inputs (s : State) (r : Reg) (b : Byte) : (s.setReg r b).inputs = s.inputs := rfl
@[simp] theorem State.setReg_draws (s : State) (r : Reg) (b : Byte) : (s.setReg r b).draws = s.draws := rfl

/-! ### setI -/

@[simp] theorem State.setI_v (s : State) (w : Word) : (s.setI w).v = s.v := rfl
@[simp] theorem State.setI_i (s : State) (w : Word) : (s.setI w).i = w := rfl
@[simp] theorem State.setI_pc (s : State) (w : Word) : (s.setI w).pc = s.pc := rfl
@[simp] theorem State.setI_stack (s : State) (w : Word) : (s.setI w).stack = s.stack := rfl
@[simp] theorem State.setI_sp (s : State) (w : Word) : (s.setI w).sp = s.sp := rfl
@[simp] theorem State.setI_dt (s : State) (w : Word) : (s.setI w).dt = s.dt := rfl
@[simp] theorem State.setI_st (s : State) (w : Word) : (s.setI w).st = s.st := rfl
@[simp] theorem State.setI_ticks (s : State) (w : Word) : (s.setI w).ticks = s.ticks := rfl
@[simp] theorem State.setI_mem (s : State) (w : Word) : (s.setI w).mem = s.mem := rfl
@[simp] theorem State.setI_fb (s : State) (w : Word) : (s.setI w).fb = s.fb := rfl
@[simp] theorem State.setI_wait (s : State) (w : Word) : (s.setI w).wait = s.wait := rfl
@[simp] theorem State.setI_hasReset (s : State) (w : Word) : (s.setI w).hasReset = s.hasReset := rfl
@[simp] theorem State.setI_cfg (s : State) (w : Word) : (s.setI w).cfg = s.cfg := rfl
@[simp] theorem State.setI_inputs (s : State) (w : Word) : (s.setI w).inputs = s.inputs := rfl
@[simp] theorem State.setI_draws (s : State) (w : Word) : (s.setI w).draws = s.draws := rfl

/-! ### setPc -/

@[simp] theorem State.setPc_v (s : State) (w : Word) : (s.setPc w).v = s.v := rfl
@[simp] theorem State.setPc_i (s : State) (w : Word) : (s.setPc w).i = s.i := rfl
@[simp] theorem State.setPc_pc (s : State) (w : Word) : (s.setPc w).pc = w := rfl
@[simp] theorem State.setPc_stack (s : State) (w : Word) : (s.setPc w).stack = s.stack := rfl
@[simp] theorem State.setPc_sp (s : State) (w : Word) : (s.setPc w).sp = s.sp := rfl
@[simp] theorem State.setPc_dt (s : State) (w : Word) : (s.setPc w).dt = s.dt := rfl
@[simp] theorem State.setPc_st (s : State) (w : Word) : (s.setPc w).st = s.st := rfl
@[simp] theorem State.setPc_ticks (s : State) (w : Word) : (s.setPc w).ticks = s.ticks := rfl
@[simp] theorem State.setPc_mem (s : State) (w : Word) : (s.setPc w).mem = s.mem := rfl
@[simp] theorem State.setPc_fb (s : State) (w : Word) : (s.setPc w).fb = s.fb := rfl
@[simp] theorem State.setPc_wait (s : State) (w : Word) : (s.setPc w).wait = s.wait := rfl
@[simp] theorem State.setPc_hasReset (s : State) (w : Word) : (s.setPc w).hasReset = s.hasReset := rfl
@[simp] theorem State.setPc_cfg (s : State) (w : Word) : (s.setPc w).cfg = s.cfg := rfl
@[simp] theorem State.setPc_inputs (s : State) (w : Word) : (s.setPc w).inputs = s.inputs := rfl
@[simp] theorem State.setPc_draws (s : State) (w : Word) : (s.setPc w).draws = s.draws := rfl

/-! ### advancePc -/

@[simp] theorem State.advancePc_v (s : State) : (s.advancePc).v = s.v := rfl
@[simp] theorem State.advancePc_i (s : State) : (s.advancePc).i = s.i := rfl
@[simp] theorem State.advancePc_pc (s : State) : (s.advancePc).pc = s.pc + 2 := rfl
@[simp] theorem State.advancePc_stack (s : State) : (s.advancePc).stack = s.stack := rfl
@[simp] theorem State.advancePc_sp (s : State) : (s.advancePc).sp = s.sp := rfl
@[simp] theorem State.advancePc_dt (s : State) : (s.advancePc).dt = s.dt := rfl
@[simp] theorem State.advancePc_st (s : State) : (s.advancePc).st = s.st := rfl
@[simp] theorem State.advancePc_ticks (s : State) : (s.advancePc).ticks = s.ticks := rfl
@[simp] theorem State.advancePc_mem (s : State) : (s.advancePc).mem = s.mem := rfl
@[simp] theorem State.advancePc_fb (s : State) : (s.advancePc).fb = s.fb := rfl
@[simp] theorem State.advancePc_wait (s : State) : (s.advancePc).wait = s.wait := rfl
@[simp] theorem State.advancePc_hasReset (s : State) : (s.advancePc).hasReset = s.hasReset := rfl
@[simp] theorem State.advancePc_cfg (s : State) : (s.advancePc).cfg = s.cfg := rfl
@[simp] theorem State.advancePc_inputs (s : State) : (s.advancePc).inputs = s.inputs := rfl
@[simp] theorem State.advancePc_draws (s : State) : (s.advancePc).draws = s.draws := rfl

/-! ### nextInput -/

@[simp] theorem State.nextInput_v (s : State) : (s.nextInput).v = s.v := rfl
@[simp] theorem State.nextInput_i (s : State) : (s.nextInput).i = s.i := rfl
@[simp] theorem State.nextInput_pc (s : State) : (s.nextInput).pc = s.pc := rfl
@[simp] theorem State.nextInput_stack (s : State) : (s.nextInput).stack = s.stack := rfl
@[simp] theorem State.nextInput_sp (s : State) : (s.nextInput).sp = s.sp := rfl
@[simp] theorem State.nextInput_dt (s : State) : (s.nextInput).dt = s.dt := rfl
@[simp] theorem State.nextInput_st (s : State) : (s.nextInput).st = s.st := rfl
@[simp] theorem State.nextInput_ticks (s : State) : (s.nextInput).ticks = s.ticks := rfl
@[simp] theorem State.nextInput_mem (s : State) : (s.nextInput).mem = s.mem := rfl
@[simp] theorem State.nextInput_fb (s : State) : (s.nextInput).fb = s.fb := rfl
@[simp] theorem State.nextInput_wait (s : State) : (s.nextInput).wait = s.wait := rfl
@[simp] theorem State.nextInput_hasReset (s : State) : (s.nextInput).hasReset = s.hasReset := rfl
@[simp] theorem State.nextInput_cfg (s : State) : (s.nextInput).cfg = s.cfg := rfl
@[simp] theorem State.nextInput_inputs (s : State) : (s.nextInput).inputs = s.inputs.tail := rfl
@[simp] theorem State.nextInput_draws (s : State) : (s.nextInput).draws = s.draws + 1 := rfl

/-! ### setFlag -/

@[simp] theorem State.setFlag_i (s : State) (c : Bool) : (s.setFlag c).i = s.i := rfl
@[simp] theorem State.setFlag_pc (s : State) (c : Bool) : (s.setFlag c).pc = s.pc := rfl
@[simp] theorem State.setFlag_stack (s : State) (c : Bool) : (s.setFlag c).stack = s.stack := rfl
@[simp] theorem State.setFlag_sp (s : State) (c : Bool) : (s.setFlag c).sp = s.sp := rfl
@[simp] theorem State.setFlag_dt (s : State) (c : Bool) : (s.setFlag c).dt = s.dt := rfl
@[simp] theorem State.setFlag_st (s : State) (c : Bool) : (s.setFlag c).st = s.st := rfl
@[simp] theorem State.setFlag_ticks (s : State) (c : Bool) : (s.setFlag c).ticks = s.ticks := rfl
@[simp] theorem State.setFlag_mem (s : State) (c : Bool) : (s.setFlag c).mem = s.mem := rfl
@[simp] theorem State.setFlag_fb (s : State) (c : Bool) : (s.setFlag c).fb = s.fb := rfl
@[simp] theorem State.setFlag_wait (s : State) (c : Bool) : (s.setFlag c).wait = s.wait := rfl
@[simp] theorem State.setFlag_hasReset (s : State) (c : Bool) : (s.setFlag c).hasReset = s.hasReset := rfl
@[simp] theorem State.setFlag_cfg (s : State) (c : Bool) : (s.setFlag c).cfg = s.cfg := rfl
@[simp] theorem State.setFlag_inputs (s : State) (c : Bool) : (s.setFlag c).inputs = s.inputs := rfl
@[simp] theorem State.setFlag_draws (s : State) (c : Bool) : (s.setFlag c).draws = s.draws := rfl

/-! ### resultThenFlag -/

@[simp] theorem State.resultThenFlag_i (s : State) (d : Reg) (b : Byte) (c : Bool) : (s.resultThenFlag d b c).i = s.i := rfl
@[simp] theorem State.resultThenFlag_pc (s : State) (d : Reg) (b : Byte) (c : Bool) : (s.resultThenFlag d b c).pc = s.pc := rfl
@[simp] theorem State.resultThenFlag_stack (s : State) (d : Reg) (b : Byte) (c : Bool) : (s.resultThenFlag d b c).stack = s.stack := rfl
@[simp] theorem State.resultThenFlag_sp (s : State) (d : Reg) (b : Byte) (c : Bool) : (s.resultThenFlag d b c).sp = s.sp := rfl
@[simp] theorem State.resultThenFlag_dt (s : State) (d : Reg) (b : Byte) (c : Bool) : (s.resultThenFlag d b c).dt = s.dt := rfl
@[simp] theorem State.resultThenFlag_st (s : State) (d : Reg) (b : Byte) (c : Bool) : (s.resultThenFlag d b c).st = s.st := rfl
@[simp] theorem State.resultThenFlag_ticks (s : State) (d : Reg) (b : Byte) (c : Bool) : (s.resultThenFlag d b c).ticks = s.ticks := rfl
@[simp] theorem State.resultThenFlag_mem (s : State) (d : Reg) (b : Byte) (c : Bool) : (s.resultThenFlag d b c).mem = s.mem := rfl
@[simp] theorem State.resultThenFlag_fb (s : State) (d : Reg) (b : Byte) (c : Bool) : (s.resultThenFlag d b c).fb = s.fb := rfl
@[simp] theorem State.resultThenFlag_wait (s : State) (d : Reg) (b : Byte) (c : Bool) : (s.resultThenFlag d b c).wait = s.wait := rfl
@[simp] theorem State.resultThenFlag_hasReset (s : State) (d : Reg) (b : Byte) (c : Bool) : (s.resultThenFlag d b c).hasReset = s.hasReset := rfl
@[simp] theorem State.resultThenFlag_cfg (s : State) (d : Reg) (b : Byte) (c : Bool) : (s.resultThenFlag d b c).cfg = s.cfg := rfl
@[simp] theorem State.resultThenFlag_inputs (s : State) (d : Reg) (b : Byte) (c : Bool) : (s.resultThenFlag d b c).inputs = s.inputs := rfl
@[simp] theorem State.resultThenFlag_draws (s : State) (d : Reg) (b : Byte) (c : Bool) : (s.resultThenFlag d b c).draws = s.draws := rfl

/-! ### flagThenResult -/

@[simp] theorem State.flagThenResult_i (s : State) (d : Reg) (b : Byte) (c : Bool) : (s.flagThenResult d b c).i = s.i := rfl
@[simp] theorem State.flagThenResult_pc (s : State) (d : Reg) (b : Byte) (c : Bool) : (s.flagThenResult d b c).pc = s.pc := rfl
@[simp] theorem State.flagThenResult_stack (s : State) (d : Reg) (b : Byte) (c : Bool) : (s.flagThenResult d b c).stack = s.stack := rfl
@[simp] theorem State.flagThenResult_sp (s : State) (d : Reg) (b : Byte) (c : Bool) : (s.flagThenResult d b c).sp = s.sp := rfl
@[simp] theorem State.flagThenResult_dt (s : State) (d : Reg) (b : Byte) (c : Bool) : (s.flagThenResult d b c).dt = s.dt := rfl
@[simp] theorem State.flagThenResult_st (s : State) (d : Reg) (b : Byte) (c : Bool) : (s.flagThenResult d b c).st = s.st := rfl
@[simp] theorem State.flagThenResult_ticks (s : State) (d : Reg) (b : Byte) (c : Bool) : (s.flagThenResult d b c).ticks = s.ticks := rfl
@[simp] theorem State.flagThenResult_mem (s : State) (d : Reg) (b : Byte) (c : Bool) : (s.flagThenResult d b c).mem = s.mem := rfl
@[simp] theorem State.flagThenResult_fb (s : State) (d : Reg) (b : Byte) (c : Bool) : (s.flagThenResult d b c).fb = s.fb := rfl
@[simp] theorem State.flagThenResult_wait (s : State) (d : Reg) (b : Byte) (c : Bool) : (s.flagThenResult d b c).wait = s.wait := rfl
@[simp] theorem State.flagThenResult_hasReset (s : State) (d : Reg) (b : Byte) (c : Bool) : (s.flagThenResult d b c).hasReset = s.hasReset := rfl
@[simp] theorem State.flagThenResult_cfg (s : State) (d : Reg) (b : Byte) (c : Bool) : (s.flagThenResult d b c).cfg = s.cfg := rfl
@[simp] theorem State.flagThenResult_inputs (s : State) (d : Reg) (b : Byte) (c : Bool) : (s.flagThenResult d b c).inputs = s.inputs := rfl
@[simp] theorem State.flagThenResult_draws (s : State) (d : Reg) (b : Byte) (c : Bool) : (s.flagThenResult d b c).draws = s.draws := rfl

/-! ### skipIf -/

@[simp] theorem State.skipIf_v (s : State) (c : Bool) : (s.skipIf c).v = s.v := by
  cases c <;> rfl
@[simp] theorem State.skipIf_i (s : State) (c : Bool) : (s.skipIf c).i = s.i := by
  cases c <;> rfl
@[simp] theorem State.skipIf_stack (s : State) (c : Bool) : (s.skipIf c).stack = s.stack := by
  cases c <;> rfl
@[simp] theorem State.skipIf_sp (s : State) (c : Bool) : (s.skipIf c).sp = s.sp := by
  cases c <;> rfl
@[simp] theorem State.skipIf_dt (s : State) (c : Bool) : (s.skipIf c).dt = s.dt := by
  cases c <;> rfl
@[simp] theorem State.skipIf_st (s : State) (c : Bool) : (s.skipIf c).st = s.st := by
  cases c <;> rfl
@[simp] theorem State.skipIf_ticks (s : State) (c : Bool) : (s.skipIf c).ticks = s.ticks := by
  cases c <;> rfl
@[simp] theorem State.skipIf_mem (s : State) (c : Bool) : (s.skipIf c).mem = s.mem := by
  cases c <;> rfl
@[simp] theorem State.skipIf_fb (s : State) (c : Bool) : (s.skipIf c).fb = s.fb := by
  cases c <;> rfl
@[simp] theorem State.skipIf_wait (s : State) (c : Bool) : (s.skipIf c).wait = s.wait := by
  cases c <;> rfl
@[simp] theorem State.skipIf_hasReset (s : State) (c : Bool) : (s.skipIf c).hasReset = s.hasReset := by
  cases c <;> rfl
@[simp] theorem State.skipIf_cfg (s : State) (c : Bool) : (s.skipIf c).cfg = s.cfg := by
  cases c <;> rfl
@[simp] theorem State.skipIf_inputs (s : State) (c : Bool) : (s.skipIf c).inputs = s.inputs := by
  cases c <;> rfl
@[simp] theorem State.skipIf_draws (s : State) (c : Bool) : (s.skipIf c).draws = s.draws := by
  cases c <;> rfl
@[simp] theorem State.skipIf_pc (s : State) (c : Bool) : (s.skipIf c).pc = if c then s.pc + 2 else s.pc := by
  cases c <;> rfl

/-! ### setRegs -/

@[simp] theorem State.setRegs_i (s : State) (j : Nat) (bs : List Byte) : (s.setRegs j bs).i = s.i := by
  induction bs generalizing s j with
  | nil => rfl
  | cons b bs ih => exact (ih _ _).trans rfl
@[simp] theorem State.setRegs_pc (s : State) (j : Nat) (bs : List Byte) : (s.setRegs j bs).pc = s.pc := by
  induction bs generalizing s j with
  | nil => rfl
  | cons b bs ih => exact (ih _ _).trans rfl
@[simp] theorem State.setRegs_stack (s : State) (j : Nat) (bs : List Byte) : (s.setRegs j bs).stack = s.stack := by
  induction bs generalizing s j with
  | nil => rfl
  | cons b bs ih => exact (ih _ _).trans rfl
@[simp] theorem State.setRegs_sp (s : State) (j : Nat) (bs : List Byte) : (s.setRegs j bs).sp = s.sp := by
  induction bs generalizing s j with
  | nil => rfl
  | cons b bs ih => exact (ih _ _).trans rfl
@[simp] theorem State.setRegs_dt (s : State) (j : Nat) (bs : List Byte) : (s.setRegs j bs).dt = s.dt := by
  induction bs generalizing s j with
  | nil => rfl
  | cons b bs ih => exact (ih _ _).trans rfl
@[simp] theorem State.setRegs_st (s : State) (j : Nat) (bs : List Byte) : (s.setRegs j bs).st = s.st := by
  induction bs generalizing s j with
  | nil => rfl
  | cons b bs ih => exact (ih _ _).trans rfl
@[simp] theorem State.setRegs_ticks (s : State) (j : Nat) (bs : List Byte) : (s.setRegs j bs).ticks = s.ticks := by
  induction bs generalizing s j with
  | nil => rfl
  | cons b bs ih => exact (ih _ _).trans rfl
@[simp] theorem State.setRegs_mem (s : State) (j : Nat) (bs : List Byte) : (s.setRegs j bs).mem = s.mem := by
  induction bs generalizing s j with
  | nil => rfl
  | cons b bs ih => exact (ih _ _).trans rfl
@[simp] theorem State.setRegs_fb (s : State) (j : Nat) (bs : List Byte) : (s.setRegs j bs).fb = s.fb := by
  induction bs generalizing s j with
  | nil => rfl
  | cons b bs ih => exact (ih _ _).trans rfl
@[simp] theorem State.setRegs_wait (s : State) (j : Nat) (bs : List Byte) : (s.setRegs j bs).wait = s.wait := by
  induction bs generalizing s j with
  | nil => rfl
  | cons b bs ih => exact (ih _ _).trans rfl
@[simp] theorem State.setRegs_hasReset (s : State) (j : Nat) (bs : List Byte) : (s.setRegs j bs).hasReset = s.hasReset := by
  induction bs generalizing s j with
  | nil => rfl
  | cons b bs ih => exact (ih _ _).trans rfl
@[simp] theorem State.setRegs_cfg (s : State) (j : Nat) (bs : List Byte) : (s.setRegs j bs).cfg = s.cfg := by
  induction bs generalizing s j with
  | nil => rfl
  | cons b bs ih => exact (ih _ _).trans rfl
@[simp] theorem State.setRegs_inputs (s : State) (j : Nat) (bs : List Byte) : (s.setRegs j bs).inputs = s.inputs := by
  induction bs generalizing s j with
  | nil => rfl
  | cons b bs ih => exact (ih _ _).trans rfl
@[simp] theorem State.setRegs_draws (s : State) (j : Nat) (bs : List Byte) : (s.setRegs j bs).draws = s.draws := by
  induction bs generalizing s j with
  | nil => rfl
  | cons b bs ih => exact (ih _ _).trans rfl

/-! ### countTick, endTick: what the end of a tick leaves alone -/

@[simp] theorem State.countTick_v (s : State) : s.countTick.v = s.v := by
  unfold State.countTick State.stepTimers; split <;> rfl
@[simp] theorem State.countTick_i (s : State) : s.countTick.i = s.i := by
  unfold State.countTick State.stepTimers; split <;> rfl
@[simp] theorem State.countTick_pc (s : State) : s.countTick.pc = s.pc := by
  unfold State.countTick State.stepTimers; split <;> rfl
@[simp] theorem State.countTick_stack (s : State) : s.countTick.stack = s.stack := by
  unfold State.countTick State.stepTimers; split <;> rfl
@[simp] theorem State.countTick_sp (s : State) : s.countTick.sp = s.sp := by
  unfold State.countTick State.stepTimers; split <;> rfl
@[simp] theorem State.countTick_mem (s : State) : s.countTick.mem = s.mem := by
  unfold State.countTick State.stepTimers; split <;> rfl
@[simp] theorem State.countTick_fb (s : State) : s.countTick.fb = s.fb := by
  unfold State.countTick State.stepTimers; split <;> rfl
@[simp] theorem State.countTick_wait (s : State) : s.countTick.wait = s.wait := by
  unfold State.countTick State.stepTimers; split <;> rfl
@[simp] theorem State.countTick_hasReset (s : State) : s.countTick.hasReset = s.hasReset := by
  unfold State.countTick State.stepTimers; split <;> rfl
@[simp] theorem State.countTick_cfg (s : State) : s.countTick.cfg = s.cfg := by
  unfold State.countTick State.stepTimers; split <;> rfl
@[simp] theorem State.countTick_inputs (s : State) : s.countTick.inputs = s.inputs := by
  unfold State.countTick State.stepTimers; split <;> rfl
@[simp] theorem State.countTick_draws (s : State) : s.countTick.draws = s.draws := by
  unfold State.countTick State.stepTimers; split <;> rfl
@[simp] theorem State.endTick_v (s : State) : s.endTick.v = s.v := by
  unfold State.endTick; split <;> simp
@[simp] theorem State.endTick_i (s : State) : s.endTick.i = s.i := by
  unfold State.endTick; split <;> simp
@[simp] theorem State.endTick_pc (s : State) : s.endTick.pc = s.pc := by
  unfold State.endTick; split <;> simp
@[simp] theorem State.endTick_stack (s : State) : s.endTick.stack = s.stack := by
  unfold State.endTick; split <;> simp
@[simp] theorem State.endTick_sp (s : State) : s.endTick.sp = s.sp := by
  unfold State.endTick; split <;> simp
@[simp] theorem State.endTick_mem (s : State) : s.endTick.mem = s.mem := by
  unfold State.endTick; split <;> simp
@[simp] theorem State.endTick_fb (s : State) : s.endTick.fb = s.fb := by
  unfold State.endTick; split <;> simp
@[simp] theorem State.endTick_wait (s : State) : s.endTick.wait = s.wait := by
  unfold State.endTick; split <;> simp
@[simp] theorem State.endTick_hasReset (s : State) : s.endTick.hasReset = s.hasReset := by
  unfold State.endTick; split <;> simp
@[simp] theorem State.endTick_cfg (s : State) : s.endTick.cfg = s.cfg := by
  unfold State.endTick; split <;> simp
@[simp] theorem State.endTick_inputs (s : State) : s.endTick.inputs = s.inputs.tail := by
  unfold State.endTick; split <;> simp
@[simp] theorem State.endTick_draws (s : State) : s.endTick.draws = s.draws + 1 := by
  unfold State.endTick; split <;> simp

end Sys2Proof.Machine
end

