-- ==== Sys2Proof/Laws/Registers.lean ====
section
/-! SUPPORT. What reading a register, the stack or a pixel gives after a write. -/
namespace Sys2Proof.Machine
open Sys2Proof

/-- Reading any element of a vector after one element is set. -/
theorem get_set_vector {α : Type} {n : Nat} (v : Vector α n) (i j : Fin n) (a : α) :
    (v.set i a).get j = if j = i then a else v.get j := by
  have h : (v.set i a i.isLt)[j.val] = if i.val = j.val then a else v[j.val] := Vector.getElem_set ..
  simp only [Fin.ext_iff, eq_comm (a := j.val)]
  exact h

@[simp] theorem State.reg_setReg (s : State) (r q : Reg) (b : Byte) :
    (s.setReg r b).reg q = if q = r then b else s.reg q :=
  get_set_vector s.v r q b

/-- Two states with the same register file have the same registers. -/
theorem State.reg_congr {s t : State} (h : t.v = s.v) (r : Reg) : t.reg r = s.reg r := by
  simp [State.reg, h]

@[simp] theorem State.reg_setI (s : State) (w : Word) (r : Reg) : (s.setI w).reg r = s.reg r := rfl
@[simp] theorem State.reg_setPc (s : State) (w : Word) (r : Reg) : (s.setPc w).reg r = s.reg r := rfl
@[simp] theorem State.reg_advancePc (s : State) (r : Reg) : s.advancePc.reg r = s.reg r := rfl
@[simp] theorem State.reg_nextInput (s : State) (r : Reg) : s.nextInput.reg r = s.reg r := rfl
@[simp] theorem State.reg_skipIf (s : State) (c : Bool) (r : Reg) : (s.skipIf c).reg r = s.reg r := by
  cases c <;> rfl
@[simp] theorem State.reg_endTick (s : State) (r : Reg) : s.endTick.reg r = s.reg r :=
  State.reg_congr (by simp) r

@[simp] theorem State.reg_setFlag (s : State) (c : Bool) (q : Reg) :
    (s.setFlag c).reg q = if q = vf then flagByte c else s.reg q :=
  State.reg_setReg s vf q (flagByte c)

/-- `8xy4`'s order: the flag stands in VF whatever the destination (R143). -/
@[simp] theorem State.reg_resultThenFlag (s : State) (d q : Reg) (b : Byte) (c : Bool) :
    (s.resultThenFlag d b c).reg q = if q = vf then flagByte c else if q = d then b else s.reg q := by
  simp [State.resultThenFlag]

/-- The order of the other flag producers: the result stands in the destination, VF or not (R143). -/
@[simp] theorem State.reg_flagThenResult (s : State) (d q : Reg) (b : Byte) (c : Bool) :
    (s.flagThenResult d b c).reg q = if q = d then b else if q = vf then flagByte c else s.reg q := by
  simp [State.flagThenResult]

/-- A block of registers written in order: each holds its byte, every other one what it held. -/
theorem State.reg_setRegs (s : State) (j : Nat) (bs : List Byte) (q : Reg) (h : j + bs.length ≤ 16) :
    (s.setRegs j bs).reg q =
      if j ≤ q.val ∧ q.val < j + bs.length then bs.getD (q.val - j) 0 else s.reg q := by
  induction bs generalizing s j with
  | nil =>
    have : ¬ (j ≤ q.val ∧ q.val < j) := by omega
    simp [State.setRegs, this]
  | cons b bs ih =>
    simp only [List.length_cons] at h ⊢
    have hj : q = Fin.ofNat 16 j ↔ q.val = j := by
      rw [Fin.ext_iff, Fin.val_ofNat, Nat.mod_eq_of_lt (by omega)]
    rw [State.setRegs, ih _ _ (by omega), State.reg_setReg]
    by_cases h1 : j + 1 ≤ q.val ∧ q.val < j + 1 + bs.length
    · have h2 : j ≤ q.val ∧ q.val < j + (bs.length + 1) := by omega
      obtain ⟨k, hk⟩ : ∃ k, q.val - j = k + 1 := ⟨q.val - j - 1, by omega⟩
      rw [if_pos h1, if_pos h2, hk, show q.val - (j + 1) = k by omega]
      rfl
    · by_cases h3 : q.val = j
      · have h2 : j ≤ q.val ∧ q.val < j + (bs.length + 1) := by omega
        rw [if_neg h1, if_pos (hj.2 h3), if_pos h2, show q.val - j = 0 by omega]
        rfl
      · have h2 : ¬ (j ≤ q.val ∧ q.val < j + (bs.length + 1)) := by omega
        rw [if_neg h1, if_neg (fun e => h3 (hj.1 e)), if_neg h2]

theorem State.length_regsUpTo (s : State) (x : Reg) : (s.regsUpTo x).length = x.val + 1 := by
  have := x.isLt
  simp only [State.regsUpTo, List.length_take, Vector.length_toList]
  omega

theorem State.getElem_regsUpTo (s : State) (x : Reg) (j : Nat) (h : j < (s.regsUpTo x).length) :
    (s.regsUpTo x)[j] = s.reg ⟨j, by have := s.length_regsUpTo x; have := x.isLt; omega⟩ := by
  simp [State.regsUpTo, State.reg, Vector.get]

/-- Everything a push can do (R112, R211). -/
theorem State.push_cases (s : State) (w : Word) :
    (s.sp = 15 ∧ s.push w = .error (.stackOverflow s.sp)) ∨
    (s.sp ≠ 15 ∧ s.push w = .ok { s with sp := s.sp + 1, stack := s.stack.set (s.sp + 1 : Fin 16) w }) := by
  by_cases h : s.sp = 15
  · exact .inl ⟨h, by simp [State.push, h]⟩
  · exact .inr ⟨h, by simp [State.push, h]⟩

/-- Everything a pop can do (R110, R212). -/
theorem State.pop_cases (s : State) :
    (s.sp = 0 ∧ s.pop = .error (.stackUnderflow s.sp)) ∨
    (s.sp ≠ 0 ∧ s.pop = .ok (s.stack.get s.sp, { s with sp := s.sp - 1 })) := by
  by_cases h : s.sp = 0
  · exact .inl ⟨h, by simp [State.pop, h]⟩
  · exact .inr ⟨h, by simp [State.pop, h]⟩

@[simp] theorem Frame.pixel_setPixel (fb : Frame) (r q : Fin 32) (c d : Fin 64) (p : Bool) :
    (fb.setPixel r c p).pixel q d = if q = r ∧ d = c then p else fb.pixel q d := by
  simp only [Frame.setPixel, Frame.pixel, get_set_vector]
  by_cases h : q = r
  · subst h
    simp [get_set_vector]
  · simp [h]

@[simp] theorem Frame.pixel_clear (r : Fin 32) (c : Fin 64) : Frame.clear.pixel r c = false := by
  simp [Frame.clear, Frame.pixel, Vector.get]

end Sys2Proof.Machine
end

