-- ==== Sys2Proof/Laws/Memory.lean ====
section
/-! SUPPORT. Memory: a read after a write, the canonical form is kept, and what the checked accesses can do. -/
namespace Sys2Proof.Machine
open Sys2Proof

theorem inRange_iff (a n : Nat) : inRange a n = true ↔ n = 0 ∨ a + n ≤ 4096 := by
  simp only [inRange, Bool.or_eq_true, beq_iff_eq, decide_eq_true_eq]
  omega

/-! ### Read after write -/

theorem Memory.get_put (font : List Byte) (m : Memory) (a : Nat) (b : Byte) (q : Nat) :
    Memory.get font (m.put a b) q = if q = a then b else Memory.get font m q := by
  induction m with
  | nil => rfl
  | cons c rest ih =>
    obtain ⟨c, d⟩ := c
    simp only [Memory.put]
    split
    · simp [Memory.get]
    · split
      · rename_i h; subst h
        simp only [Memory.get]; split <;> simp_all
      · simp only [Memory.get, ih]; split <;> split <;> simp_all

theorem Memory.get_drop (font : List Byte) (m : Memory) (a q : Nat) :
    Memory.get font (m.drop a) q = if q = a then unlisted font a else Memory.get font m q := by
  induction m with
  | nil =>
    by_cases e : q = a
    · subst e; simp [Memory.drop, Memory.get]
    · simp [Memory.drop, Memory.get, e]
  | cons c rest ih =>
    obtain ⟨c, d⟩ := c
    simp only [Memory.drop]
    split
    · rename_i e; subst e
      simp only [Memory.get, ih]; split <;> rfl
    · simp only [Memory.get, ih]; split <;> split <;> simp_all

/-- A read after a write: the byte written there, every other one as before. -/
theorem Memory.get_set (font : List Byte) (m : Memory) (a : Nat) (b : Byte) (q : Nat) :
    Memory.get font (m.set font a b) q = if q = a then b else Memory.get font m q := by
  unfold Memory.set
  split
  · rename_i e; rw [Memory.get_drop, e]
  · exact Memory.get_put ..

/-! ### The canonical form is kept -/

theorem Memory.wfFrom_mono (font : List Byte) (m : Memory) {lo lo' : Nat} (hl : lo' ≤ lo)
    (h : Memory.wfFrom font lo m = true) : Memory.wfFrom font lo' m = true := by
  cases m with
  | nil => rfl
  | cons c rest =>
    simp only [Memory.wfFrom, Bool.and_eq_true, decide_eq_true_eq] at h ⊢
    exact ⟨⟨⟨by omega, h.1.1.2⟩, h.1.2⟩, h.2⟩

theorem Memory.wfFrom_put (font : List Byte) (m : Memory) (lo a : Nat) (b : Byte)
    (h : Memory.wfFrom font lo m = true) (hlo : lo ≤ a) (ha : a < memSize) (hb : b ≠ unlisted font a) :
    Memory.wfFrom font lo (m.put a b) = true := by
  induction m generalizing lo with
  | nil => simp [Memory.put, Memory.wfFrom, hlo, ha, hb]
  | cons c rest ih =>
    obtain ⟨c, d⟩ := c
    simp only [Memory.wfFrom, Bool.and_eq_true, decide_eq_true_eq] at h
    simp only [Memory.put]
    split
    · simp only [Memory.wfFrom, Bool.and_eq_true, decide_eq_true_eq]
      exact ⟨⟨⟨hlo, ha⟩, hb⟩, ⟨⟨⟨by omega, h.1.1.2⟩, h.1.2⟩, h.2⟩⟩
    · split
      · rename_i e; subst e
        simp only [Memory.wfFrom, Bool.and_eq_true, decide_eq_true_eq]
        exact ⟨⟨⟨hlo, ha⟩, hb⟩, h.2⟩
      · simp only [Memory.wfFrom, Bool.and_eq_true, decide_eq_true_eq]
        exact ⟨h.1, ih _ h.2 (by omega)⟩

theorem Memory.wfFrom_drop (font : List Byte) (m : Memory) (lo a : Nat)
    (h : Memory.wfFrom font lo m = true) : Memory.wfFrom font lo (m.drop a) = true := by
  induction m generalizing lo with
  | nil => rfl
  | cons c rest ih =>
    obtain ⟨c, d⟩ := c
    simp only [Memory.wfFrom, Bool.and_eq_true, decide_eq_true_eq] at h
    simp only [Memory.drop]
    split
    · exact Memory.wfFrom_mono font _ (by omega) (ih _ h.2)
    · simp only [Memory.wfFrom, Bool.and_eq_true, decide_eq_true_eq]
      exact ⟨h.1, ih _ h.2⟩

/-- Writing one byte inside the memory keeps the canonical form. -/
theorem Memory.wf_set (font : List Byte) (m : Memory) (a : Nat) (b : Byte)
    (h : Memory.wf font m = true) (ha : a < memSize) : Memory.wf font (m.set font a b) = true := by
  unfold Memory.set
  split
  · exact Memory.wfFrom_drop font m 0 a h
  · exact Memory.wfFrom_put font m 0 a b h (by omega) ha ‹_›

/-- Writing bytes inside the memory keeps the canonical form. -/
theorem Memory.wf_setAll (font : List Byte) (m : Memory) (a : Nat) (bs : List Byte)
    (h : Memory.wf font m = true) (ha : bs = [] ∨ a + bs.length ≤ memSize) :
    Memory.wf font (m.setAll font a bs) = true := by
  induction bs generalizing m a with
  | nil => exact h
  | cons b bs ih =>
    simp only [List.length_cons, reduceCtorEq, false_or] at ha
    refine ih _ _ (Memory.wf_set font m a b h (by omega)) ?_
    cases bs with
    | nil => exact .inl rfl
    | cons => exact .inr (by simp only [List.length_cons] at ha ⊢; omega)

/-- A read after a block of bytes is written. -/
theorem Memory.get_setAll (font : List Byte) (m : Memory) (a : Nat) (bs : List Byte) (q : Nat) :
    Memory.get font (m.setAll font a bs) q =
      if a ≤ q ∧ q < a + bs.length then bs.getD (q - a) 0 else Memory.get font m q := by
  induction bs generalizing m a with
  | nil =>
    have : ¬ (a ≤ q ∧ q < a) := by omega
    simp [Memory.setAll, this]
  | cons b bs ih =>
    simp only [List.length_cons]
    rw [Memory.setAll, ih, Memory.get_set]
    by_cases h1 : a + 1 ≤ q ∧ q < a + 1 + bs.length
    · have h2 : a ≤ q ∧ q < a + (bs.length + 1) := by omega
      obtain ⟨k, hk⟩ : ∃ k, q - a = k + 1 := ⟨q - a - 1, by omega⟩
      rw [if_pos h1, if_pos h2, hk, show q - (a + 1) = k by omega]
      rfl
    · by_cases h3 : q = a
      · have h2 : a ≤ q ∧ q < a + (bs.length + 1) := by omega
        rw [if_neg h1, if_pos h3, if_pos h2, show q - a = 0 by omega]
        rfl
      · have h2 : ¬ (a ≤ q ∧ q < a + (bs.length + 1)) := by omega
        rw [if_neg h1, if_neg h3, if_neg h2]

theorem State.reset_mem_wf : State.reset.mem.wf State.reset.cfg.font = true := rfl

/-! ### The checked accesses (R51, R57) -/

/-- Everything a checked write can do. -/
theorem State.memWrite_cases (s : State) (a : Nat) (bs : List Byte) :
    (inRange a bs.length = true ∧ s.memWrite a bs = .next { s with mem := s.mem.setAll s.cfg.font a bs }) ∨
    (inRange a bs.length = false ∧ s.memWrite a bs = .fault (.memoryOutOfRange a)) := by
  unfold State.memWrite raise
  split
  · exact .inl ⟨‹_›, rfl⟩
  · exact .inr ⟨eq_false_of_ne_true ‹_›, rfl⟩

/-- Everything a checked read can do. -/
theorem State.memRead_cases (s : State) (a n : Nat) :
    (inRange a n = true ∧ s.memRead a n = .ok ((List.range n).map fun j => s.readByte (a + j))) ∨
    (inRange a n = false ∧ s.memRead a n = .error (.memoryOutOfRange a)) := by
  unfold State.memRead
  split
  · exact .inl ⟨‹_›, rfl⟩
  · exact .inr ⟨eq_false_of_ne_true ‹_›, rfl⟩

/-- Everything a fetch can do (R93). -/
theorem State.fetchWord_cases (s : State) :
    (s.pc.toNat ≤ 4094 ∧ s.fetchWord = .ok (wordAtPc s)) ∨
    (4094 < s.pc.toNat ∧ s.fetchWord = .error (.memoryOutOfRange s.pc.toNat)) := by
  have hr := inRange_iff s.pc.toNat 2
  unfold State.fetchWord wordAtPc
  by_cases h : s.pc.toNat ≤ 4094
  · exact .inl ⟨h, if_pos (hr.2 (by omega))⟩
  · exact .inr ⟨by omega, if_neg (fun e => by have := hr.1 e; omega)⟩

/-- A checked write that completes keeps the canonical form. -/
theorem State.memWrite_wf {s t : State} {a : Nat} {bs : List Byte} (h : s.memWrite a bs = .next t)
    (hw : s.mem.wf s.cfg.font = true) : t.mem.wf t.cfg.font = true := by
  rcases s.memWrite_cases a bs with ⟨hr, he⟩ | ⟨_, he⟩
  · rw [he] at h
    cases h
    refine Memory.wf_setAll _ _ _ _ hw ?_
    have := (inRange_iff a bs.length).1 hr
    rcases this with h0 | h0
    · exact .inl (List.length_eq_zero_iff.1 h0)
    · exact .inr h0
  · rw [he] at h
    cases h

/-- What memory reads as after a checked write that completes. -/
theorem State.readByte_memWrite {s t : State} {a : Nat} {bs : List Byte} (h : s.memWrite a bs = .next t)
    (q : Nat) : t.readByte q = if a ≤ q ∧ q < a + bs.length then bs.getD (q - a) 0 else s.readByte q := by
  rcases s.memWrite_cases a bs with ⟨_, he⟩ | ⟨_, he⟩
  · rw [he] at h
    cases h
    exact Memory.get_setAll ..
  · rw [he] at h
    cases h

/-! ### readByte under the updates that leave memory alone -/

theorem State.readByte_congr {s t : State} (hm : t.mem = s.mem) (hc : t.cfg = s.cfg) (a : Nat) :
    t.readByte a = s.readByte a := by
  simp [State.readByte, hm, hc]

@[simp] theorem State.readByte_setReg (s : State) (r : Reg) (b : Byte) (a : Nat) :
    (s.setReg r b).readByte a = s.readByte a := rfl
@[simp] theorem State.readByte_setI (s : State) (w : Word) (a : Nat) : (s.setI w).readByte a = s.readByte a := rfl
@[simp] theorem State.readByte_setPc (s : State) (w : Word) (a : Nat) : (s.setPc w).readByte a = s.readByte a := rfl
@[simp] theorem State.readByte_advancePc (s : State) (a : Nat) : s.advancePc.readByte a = s.readByte a := rfl
@[simp] theorem State.readByte_setFlag (s : State) (c : Bool) (a : Nat) :
    (s.setFlag c).readByte a = s.readByte a := rfl
@[simp] theorem State.readByte_resultThenFlag (s : State) (d : Reg) (b : Byte) (c : Bool) (a : Nat) :
    (s.resultThenFlag d b c).readByte a = s.readByte a := rfl
@[simp] theorem State.readByte_flagThenResult (s : State) (d : Reg) (b : Byte) (c : Bool) (a : Nat) :
    (s.flagThenResult d b c).readByte a = s.readByte a := rfl
@[simp] theorem State.readByte_skipIf (s : State) (c : Bool) (a : Nat) :
    (s.skipIf c).readByte a = s.readByte a := by
  cases c <;> rfl
@[simp] theorem State.readByte_setRegs (s : State) (j : Nat) (bs : List Byte) (a : Nat) :
    (s.setRegs j bs).readByte a = s.readByte a :=
  State.readByte_congr (by simp) (by simp) a
@[simp] theorem State.readByte_endTick (s : State) (a : Nat) : s.endTick.readByte a = s.readByte a :=
  State.readByte_congr (by simp) (by simp) a

end Sys2Proof.Machine
end

