-- ==== Sys2Proof/Laws/Step.lean ====
section
/-! SUPPORT. What a tick can do, said once; the keys of a tick; one pixel of a blit. -/
namespace Sys2Proof.Machine
open Sys2Proof

/-- A frame is shown part by part. -/
theorem sameBut_of {ps : List StatePart} {s t : State}
    (h : ∀ p, p ∉ ps → Same s t p) : SameBut ps s t := h

/-! ### Keys (R194) -/

theorem State.lowestHeldFrom_none (s : State) (k n : Nat) :
    s.lowestHeldFrom k n = none ↔ ∀ j, k ≤ j → j < k + n → s.keyHeld j = false := by
  induction n generalizing k with
  | zero => simp only [State.lowestHeldFrom, true_iff]; intro j h1 h2; omega
  | succ n ih =>
    simp only [State.lowestHeldFrom]
    split
    · rename_i h
      simp only [reduceCtorEq, false_iff, not_forall]
      exact ⟨k, le_refl _, by omega, by simp [h]⟩
    · rename_i h
      rw [ih]
      constructor
      · intro hj j h1 h2
        by_cases e : j = k
        · subst e; simpa using h
        · exact hj j (by omega) (by omega)
      · intro hj j h1 h2
        exact hj j (by omega) (by omega)

theorem State.lowestHeldFrom_some (s : State) (k n q : Nat) :
    s.lowestHeldFrom k n = some q ↔
      k ≤ q ∧ q < k + n ∧ s.keyHeld q = true ∧ ∀ j, k ≤ j → j < q → s.keyHeld j = false := by
  induction n generalizing k with
  | zero => simp only [State.lowestHeldFrom, reduceCtorEq, false_iff]; omega
  | succ n ih =>
    simp only [State.lowestHeldFrom]
    split
    · rename_i h
      simp only [Option.some.injEq]
      constructor
      · rintro rfl
        exact ⟨le_refl _, by omega, h, fun j h1 h2 => by omega⟩
      · rintro ⟨h1, _, _, h4⟩
        by_contra hne
        have := h4 k (le_refl _) (by omega)
        simp [h] at this
    · rename_i h
      rw [ih]
      constructor
      · rintro ⟨h1, h2, h3, h4⟩
        refine ⟨by omega, by omega, h3, fun j h5 h6 => ?_⟩
        by_cases e : j = k
        · subst e; simpa using h
        · exact h4 j (by omega) h6
      · rintro ⟨h1, h2, h3, h4⟩
        have : q ≠ k := by rintro rfl; exact h h3
        exact ⟨by omega, by omega, h3, fun j h5 h6 => h4 j (by omega) h6⟩

/-- The poll finds the lowest held key of 0..15 (R194, D10). -/
theorem State.lowestHeld_some (s : State) (k : Nat) : s.lowestHeld = some k ↔ LowestHeld s k := by
  unfold State.lowestHeld LowestHeld
  rw [State.lowestHeldFrom_some]
  constructor
  · rintro ⟨_, h2, h3, h4⟩; exact ⟨by omega, h3, fun j hj => h4 j (by omega) hj⟩
  · rintro ⟨h2, h3, h4⟩; exact ⟨by omega, by omega, h3, fun j _ hj => h4 j hj⟩

theorem State.lowestHeld_none (s : State) : s.lowestHeld = none ↔ NoKeyHeld s := by
  unfold State.lowestHeld NoKeyHeld
  rw [State.lowestHeldFrom_none]
  exact ⟨fun h j hj => h j (by omega) (by omega), fun h j _ hj => h j (by omega)⟩

/-- Everything a poll can do (R194). -/
theorem keyWaitPoll_cases (t : Reg) (s : State) :
    (∃ k, LowestHeld s k ∧
      keyWaitPoll t s = { s.setReg t (BitVec.ofNat 8 k) with wait := { s.wait with active := false } }) ∨
    (NoKeyHeld s ∧ keyWaitPoll t s = s) := by
  unfold keyWaitPoll
  cases h : s.lowestHeld with
  | some k => exact .inl ⟨k, (s.lowestHeld_some k).1 h, rfl⟩
  | none => exact .inr ⟨s.lowestHeld_none.1 h, rfl⟩

/-- Everything the fetch tick of `Fx0A` can do (R193). -/
theorem keyWaitStart_cases (x : Reg) (s : State) :
    (∃ k, LowestHeld s k ∧
      keyWaitStart x s = { s.setReg x (BitVec.ofNat 8 k) with wait := { s.wait with active := false } }) ∨
    (NoKeyHeld s ∧ keyWaitStart x s = { s with wait := { active := true, reg := x } }) := by
  unfold keyWaitStart
  cases h : s.lowestHeld with
  | some k => exact .inl ⟨k, (s.lowestHeld_some k).1 h, by simp [keyWaitPoll, h]⟩
  | none => exact .inr ⟨s.lowestHeld_none.1 h, rfl⟩

/-! ### The end of a tick (R97, R98) -/

theorem timerDown_toNat (b : Byte) : (timerDown b).toNat = b.toNat - 1 := by
  unfold timerDown
  split <;> bv_omega

/-- The end of a counted tick. -/
theorem State.endTick_counted {s : State} (h : s.counted = true) :
    s.endTick.ticks = s.ticks + 1 ∧
    (s.endTick.ticks.toNat % s.cfg.cadence = 0 → s.endTick.dt = timerDown s.dt ∧ s.endTick.st = timerDown s.st) ∧
    (s.endTick.ticks.toNat % s.cfg.cadence ≠ 0 → s.endTick.dt = s.dt ∧ s.endTick.st = s.st) := by
  unfold State.endTick State.countTick State.stepTimers State.timersDue
  rw [if_pos h]
  split <;> simp_all

/-- The end of a counted tick, in the terms of the statements. -/
theorem State.endTick_countedOnce {s : State} (h : s.counted = true) : CountedOnce s s.endTick := by
  obtain ⟨hticks, hdue, hnot⟩ := State.endTick_counted h
  refine ⟨hticks, fun e => ?_, hnot⟩
  rw [(hdue e).1, (hdue e).2]
  exact ⟨timerDown_toNat s.dt, timerDown_toNat s.st⟩

/-- The end of a tick that is not counted. -/
theorem State.endTick_not_counted {s : State} (h : s.counted = false) :
    s.endTick.ticks = s.ticks ∧ s.endTick.dt = s.dt ∧ s.endTick.st = s.st := by
  unfold State.endTick
  rw [h]
  exact ⟨rfl, rfl, rfl⟩

/-! ### The step (R90) -/

/-- Everything a step can do: refuse a machine never reset, poll while waiting, fault at the fetch, or execute the
word at PC and end the tick. -/
theorem step_cases (s : State) :
    (s.hasReset = false ∧ step s = .refused .notReset) ∨
    (s.hasReset = true ∧ s.wait.active = true ∧ step s = .next (keyWaitPoll s.wait.reg s).endTick) ∨
    (s.hasReset = true ∧ s.wait.active = false ∧ 4094 < s.pc.toNat ∧
      step s = .fault (.memoryOutOfRange s.pc.toNat)) ∨
    (Fetches s ∧ step s = finishTick (executeWord (wordAtPc s) s.advancePc)) := by
  unfold step
  cases h : s.hasReset with
  | false => exact .inl ⟨rfl, rfl⟩
  | true =>
    cases hw : s.wait.active with
    | true => exact .inr (.inl ⟨rfl, rfl, rfl⟩)
    | false =>
      rcases s.fetchWord_cases with ⟨hp, hf⟩ | ⟨hp, hf⟩
      · exact .inr (.inr (.inr ⟨⟨h, hw, hp⟩, by simp [hf]⟩))
      · exact .inr (.inr (.inl ⟨rfl, rfl, hp, by simp [hf, raise]⟩))

/-- A tick that fetches, PC at most 4094. -/
theorem step_fetches {s : State} (h : Fetches s) :
    step s = finishTick (executeWord (wordAtPc s) s.advancePc) := by
  obtain ⟨h1, h2, h3⟩ := h
  rcases step_cases s with ⟨e, _⟩ | ⟨_, e, _⟩ | ⟨_, _, e, _⟩ | ⟨_, e⟩
  · simp [h1] at e
  · simp [h2] at e
  · omega
  · exact e

/-- The step from reset never meets the reset guard. -/
theorem State.reset_eq_load : resetLoad Config.standard [] State.reset = (State.reset, .ok) := by
  unfold resetLoad
  rw [if_pos (by decide)]
  rfl

end Sys2Proof.Machine
end

