-- ==== Sys2Proof/Laws/Exec.lean ====
section
/-! SUPPORT. What the meanings that can raise an error answer, said once each; the values of assembled operands. -/
namespace Sys2Proof.Machine
open Sys2Proof

@[simp] theorem addrWord_toNat (a : Addr) : (addrWord a).toNat = a.toNat := by
  simp only [addrWord, BitVec.toNat_setWidth]
  omega

@[simp] theorem byteWord_toNat (b : Byte) : (byteWord b).toNat = b.toNat := by
  simp only [byteWord, BitVec.toNat_setWidth]
  omega

@[simp] theorem length_decimalDigits (b : Byte) : (decimalDigits b).length = 3 := rfl

/-- SP after a push that is not refused. -/
theorem sp_succ {p : Fin 16} (h : p ≠ 15) : (p + 1).val = p.val + 1 := by
  revert p; decide

/-- SP after a pop that is not refused. -/
theorem sp_pred {p : Fin 16} (h : p ≠ 0) : (p - 1).val + 1 = p.val := by
  revert p; decide

theorem exec_callAddr_next (a : Addr) {s : State} (h : s.sp ≠ 15) :
    exec (.callAddr a) s =
      .next { s with sp := s.sp + 1, stack := s.stack.set (s.sp + 1 : Fin 16) s.pc, pc := addrWord a } := by
  rcases s.push_cases s.pc with ⟨h', _⟩ | ⟨_, e⟩
  · exact absurd h' h
  · simp only [exec, execCallAddr, e]
    rfl

theorem exec_callAddr_fault (a : Addr) {s : State} (h : s.sp = 15) :
    exec (.callAddr a) s = .fault (.stackOverflow 15) := by
  rcases s.push_cases s.pc with ⟨_, e⟩ | ⟨h', _⟩
  · simp only [exec, execCallAddr, e, raise, h]
  · exact absurd h h'

theorem exec_ret_next {s : State} (h : s.sp ≠ 0) :
    exec .ret s = .next { s with sp := s.sp - 1, pc := s.stack.get s.sp } := by
  rcases s.pop_cases with ⟨h', _⟩ | ⟨_, e⟩
  · exact absurd h' h
  · simp only [exec, execRet, e]
    rfl

theorem exec_ret_fault {s : State} (h : s.sp = 0) : exec .ret s = .fault (.stackUnderflow 0) := by
  rcases s.pop_cases with ⟨_, e⟩ | ⟨h', _⟩
  · simp only [exec, execRet, e, raise, h]
  · exact absurd h h'

/-- A checked write in range. -/
theorem State.memWrite_next {s : State} {a : Nat} {bs : List Byte} (h : bs.length = 0 ∨ a + bs.length ≤ 4096) :
    s.memWrite a bs = .next { s with mem := s.mem.setAll s.cfg.font a bs } := by
  unfold State.memWrite
  rw [if_pos ((inRange_iff ..).2 h)]

/-- A checked write out of range. -/
theorem State.memWrite_fault {s : State} {a : Nat} {bs : List Byte} (h : ¬ (bs.length = 0 ∨ a + bs.length ≤ 4096)) :
    s.memWrite a bs = .fault (.memoryOutOfRange a) := by
  unfold State.memWrite
  rw [if_neg (fun e => h ((inRange_iff ..).1 e))]
  rfl

theorem exec_ldVxMem_next (x : Reg) {s : State} (h : s.i.toNat + x.val ≤ 4095) :
    exec (.ldVxMem x) s =
      .next (s.setRegs 0 ((List.range (x.val + 1)).map fun j => s.readByte (s.i.toNat + j))) := by
  have hr := (inRange_iff s.i.toNat (x.val + 1)).2 (.inr (by omega))
  simp only [exec, execLdVxMem, State.memRead, if_pos hr]

theorem exec_ldVxMem_fault (x : Reg) {s : State} (h : 4095 < s.i.toNat + x.val) :
    exec (.ldVxMem x) s = .fault (.memoryOutOfRange s.i.toNat) := by
  have hr : ¬ inRange s.i.toNat (x.val + 1) = true := fun e => by
    have := (inRange_iff ..).1 e
    omega
  simp only [exec, execLdVxMem, State.memRead, if_neg hr, raise]

theorem exec_drwVxVyN_next (x y : Reg) (n : RowCount) {s : State} (h : n = 0 ∨ s.i.toNat + n.val - 1 ≤ 4095) :
    exec (.drwVxVyN x y n) s =
      .next (State.setFlag
        { s with fb := (draw s.fb (s.reg x).toNat (s.reg y).toNat
                  ((List.range n.val).map fun j => s.readByte (s.i.toNat + j))).1 }
        (draw s.fb (s.reg x).toNat (s.reg y).toNat ((List.range n.val).map fun j => s.readByte (s.i.toNat + j))).2) := by
  have hr : inRange s.i.toNat n.val = true := by
    rw [inRange_iff]
    rcases h with rfl | h
    · exact .inl rfl
    · omega
  simp only [exec, execDrwVxVyN, State.memRead, if_pos hr]

theorem exec_drwVxVyN_fault (x y : Reg) (n : RowCount) {s : State} (hn : n ≠ 0)
    (h : 4095 < s.i.toNat + n.val - 1) :
    exec (.drwVxVyN x y n) s = .fault (.memoryOutOfRange s.i.toNat) := by
  have hr : ¬ inRange s.i.toNat n.val = true := fun e => by
    have h0 : n.val ≠ 0 := fun e' => hn (Fin.ext e')
    have := (inRange_iff ..).1 e
    omega
  simp only [exec, execDrwVxVyN, State.memRead, if_neg hr, raise]

/-! ### What a next state tells: one inversion lemma per meaning or operation that can raise an error -/

theorem exec_ret_eq_next {s t : State} (h : exec .ret s = .next t) :
    s.sp ≠ 0 ∧ t = { s with sp := s.sp - 1, pc := s.stack.get s.sp } := by
  by_cases e : s.sp = 0
  · rw [exec_ret_fault e] at h; cases h
  · rw [exec_ret_next e] at h; cases h; exact ⟨e, rfl⟩

theorem exec_callAddr_eq_next {a : Addr} {s t : State} (h : exec (.callAddr a) s = .next t) :
    s.sp ≠ 15 ∧ t = { s with sp := s.sp + 1, stack := s.stack.set (s.sp + 1 : Fin 16) s.pc, pc := addrWord a } := by
  by_cases e : s.sp = 15
  · rw [exec_callAddr_fault a e] at h; cases h
  · rw [exec_callAddr_next a e] at h; cases h; exact ⟨e, rfl⟩

theorem State.memWrite_eq_next {s t : State} {a : Nat} {bs : List Byte} (h : s.memWrite a bs = .next t) :
    (bs.length = 0 ∨ a + bs.length ≤ 4096) ∧ t = { s with mem := s.mem.setAll s.cfg.font a bs } := by
  rcases s.memWrite_cases a bs with ⟨r, e⟩ | ⟨_, e⟩ <;> rw [e] at h <;> cases h
  exact ⟨(inRange_iff ..).1 r, rfl⟩

theorem exec_ldVxMem_eq_next {x : Reg} {s t : State} (h : exec (.ldVxMem x) s = .next t) :
    s.i.toNat + x.val ≤ 4095 ∧
    t = s.setRegs 0 ((List.range (x.val + 1)).map fun j => s.readByte (s.i.toNat + j)) := by
  by_cases e : s.i.toNat + x.val ≤ 4095
  · rw [exec_ldVxMem_next x e] at h; cases h; exact ⟨e, rfl⟩
  · rw [exec_ldVxMem_fault x (by omega)] at h; cases h

theorem exec_drwVxVyN_eq_next {x y : Reg} {n : RowCount} {s t : State}
    (h : exec (.drwVxVyN x y n) s = .next t) :
    (n = 0 ∨ s.i.toNat + n.val - 1 ≤ 4095) ∧
    t = State.setFlag
        { s with fb := (draw s.fb (s.reg x).toNat (s.reg y).toNat
                  ((List.range n.val).map fun j => s.readByte (s.i.toNat + j))).1 }
        (draw s.fb (s.reg x).toNat (s.reg y).toNat
          ((List.range n.val).map fun j => s.readByte (s.i.toNat + j))).2 := by
  by_cases e : n = 0 ∨ s.i.toNat + n.val - 1 ≤ 4095
  · rw [exec_drwVxVyN_next x y n e] at h; cases h; exact ⟨e, rfl⟩
  · rw [not_or] at e
    rw [exec_drwVxVyN_fault x y n e.1 (by omega)] at h; cases h

/-! ### One bit of a blit -/

@[simp] theorem plot_pixel (x y : Nat) (bit : Bool) (acc : Frame × Bool) (r : Fin 32) (c : Fin 64) :
    (plot x y bit acc).1.pixel r c =
      if r = wrapRow y ∧ c = wrapCol x then xor (acc.1.pixel r c) bit else acc.1.pixel r c := by
  simp only [plot, Frame.pixel_setPixel]
  split
  · rename_i h; rw [h.1, h.2]
  · rfl

@[simp] theorem plot_collision (x y : Nat) (bit : Bool) (acc : Frame × Bool) :
    (plot x y bit acc).2 = (acc.2 || (acc.1.pixel (wrapRow y) (wrapCol x) && bit)) := rfl

end Sys2Proof.Machine
end

