-- ==== Sys2Proof/Laws/Display.lean ====
section
/-! SUPPORT. What a sprite blit does to each pixel and when it collides (R172): one lemma for a pixel it targets, one
for a pixel it does not, one for the collision; first for one sprite row, then for the whole sprite. -/
namespace Sys2Proof.Machine
open Sys2Proof

theorem wrapRow_val (y : Nat) : (wrapRow y).val = y % 32 := rfl
theorem wrapCol_val (x : Nat) : (wrapCol x).val = x % 64 := rfl

/-- Columns fewer than 64 apart are different pixels. -/
theorem wrapCol_ne {x0 j j' : Nat} (h : j < j') (hj : j' < j + 64) : wrapCol (x0 + j) ≠ wrapCol (x0 + j') := by
  intro e
  have := congrArg Fin.val e
  simp only [wrapCol_val] at this
  omega

/-- Rows fewer than 32 apart are different pixels. -/
theorem wrapRow_ne {y0 i i' : Nat} (h : i < i') (hi : i' < i + 32) : wrapRow (y0 + i) ≠ wrapRow (y0 + i') := by
  intro e
  have := congrArg Fin.val e
  simp only [wrapRow_val] at this
  omega

/-- A pixel is the target of a sprite bit exactly if it is the one the blit addresses. -/
theorem targets_iff (x0 y0 row col : Nat) (r : Fin 32) (c : Fin 64) :
    Targets x0 y0 row col r c ↔ r = wrapRow (y0 + row) ∧ c = wrapCol (x0 + col) := by
  simp only [Targets, Fin.ext_iff, wrapRow_val, wrapCol_val]

/-! ### One sprite row -/

theorem drawCols_miss (x0 y : Nat) (b : Byte) (k col : Nat) (acc : Frame × Bool) (r : Fin 32) (c : Fin 64)
    (h : ∀ j, col ≤ j → j < col + k → ¬ (r = wrapRow y ∧ c = wrapCol (x0 + j))) :
    (drawCols x0 y b k col acc).1.pixel r c = acc.1.pixel r c := by
  induction k generalizing col acc with
  | zero => rfl
  | succ k ih =>
    simp only [drawCols]
    rw [ih (col + 1) _ (fun j h1 h2 => h j (by omega) (by omega)), plot_pixel,
      if_neg (h col (le_refl _) (by omega))]

theorem drawCols_hit (x0 y : Nat) (b : Byte) (k col : Nat) (acc : Frame × Bool) (hk : col + k ≤ 64) (j : Nat)
    (h1 : col ≤ j) (h2 : j < col + k) :
    (drawCols x0 y b k col acc).1.pixel (wrapRow y) (wrapCol (x0 + j)) =
      xor (acc.1.pixel (wrapRow y) (wrapCol (x0 + j))) (spriteBit b j) := by
  induction k generalizing col acc with
  | zero => omega
  | succ k ih =>
    simp only [drawCols]
    by_cases e : j = col
    · subst e
      rw [drawCols_miss _ _ _ _ _ _ _ _
        (fun j' h3 h4 he => wrapCol_ne (x0 := x0) (j := j) (j' := j') (by omega) (by omega) he.2),
        plot_pixel, if_pos ⟨rfl, rfl⟩]
    · rw [ih (col + 1) _ (by omega) (by omega) (by omega), plot_pixel,
        if_neg (fun he => wrapCol_ne (x0 := x0) (j := col) (j' := j) (by omega) (by omega) he.2.symm)]

theorem drawCols_collision (x0 y : Nat) (b : Byte) (k col : Nat) (acc : Frame × Bool) (hk : col + k ≤ 64) :
    (drawCols x0 y b k col acc).2 = true ↔
      acc.2 = true ∨ ∃ j, col ≤ j ∧ j < col + k ∧
        acc.1.pixel (wrapRow y) (wrapCol (x0 + j)) = true ∧ spriteBit b j = true := by
  induction k generalizing col acc with
  | zero => simp only [drawCols]; exact ⟨.inl, by rintro (h | ⟨j, h1, h2, _⟩) <;> [exact h; omega]⟩
  | succ k ih =>
    simp only [drawCols]
    rw [ih (col + 1) _ (by omega), plot_collision, Bool.or_eq_true, Bool.and_eq_true]
    have hp : ∀ j, col + 1 ≤ j → j < col + 1 + k →
        (plot (x0 + col) y (spriteBit b col) acc).1.pixel (wrapRow y) (wrapCol (x0 + j)) =
          acc.1.pixel (wrapRow y) (wrapCol (x0 + j)) := fun j h1 h2 => by
      rw [plot_pixel,
        if_neg (fun he => wrapCol_ne (x0 := x0) (j := col) (j' := j) (by omega) (by omega) he.2.symm)]
    constructor
    · rintro ((h | ⟨h, h'⟩) | ⟨j, h1, h2, h3, h4⟩)
      · exact .inl h
      · exact .inr ⟨col, le_refl _, by omega, h, h'⟩
      · rw [hp j h1 h2] at h3
        exact .inr ⟨j, by omega, by omega, h3, h4⟩
    · rintro (h | ⟨j, h1, h2, h3, h4⟩)
      · exact .inl (.inl h)
      · by_cases e : j = col
        · subst e; exact .inl (.inr ⟨h3, h4⟩)
        · exact .inr ⟨j, by omega, by omega, by rw [hp j (by omega) (by omega)]; exact h3, h4⟩

/-! ### The whole sprite -/

theorem drawRows_miss (x0 y : Nat) (bs : List Byte) (acc : Frame × Bool) (r : Fin 32) (c : Fin 64)
    (h : ∀ i j, i < bs.length → j < 8 → ¬ (r = wrapRow (y + i) ∧ c = wrapCol (x0 + j))) :
    (drawRows x0 y bs acc).1.pixel r c = acc.1.pixel r c := by
  induction bs generalizing y acc with
  | nil => rfl
  | cons b bs ih =>
    simp only [List.length_cons] at h
    simp only [drawRows]
    rw [ih (y + 1) _ (fun i j h1 h2 => by rw [Nat.add_assoc y 1 i]; exact h (1 + i) j (by omega) h2),
      drawCols_miss x0 y b 8 0 acc r c (fun j _ h2 => h 0 j (by omega) (by omega))]

theorem drawRows_hit (x0 y : Nat) (bs : List Byte) (acc : Frame × Bool) (hn : bs.length ≤ 32) (i j : Nat)
    (hi : i < bs.length) (hj : j < 8) :
    (drawRows x0 y bs acc).1.pixel (wrapRow (y + i)) (wrapCol (x0 + j)) =
      xor (acc.1.pixel (wrapRow (y + i)) (wrapCol (x0 + j))) (spriteBit (bs.getD i 0) j) := by
  induction bs generalizing y acc i with
  | nil => exact absurd hi (Nat.not_lt_zero _)
  | cons b bs ih =>
    simp only [List.length_cons] at hn hi
    simp only [drawRows]
    cases i with
    | zero =>
      rw [drawRows_miss _ _ _ _ _ _ (fun i' j' h1 _ he => wrapRow_ne (y0 := y) (i := 0) (i' := 1 + i')
          (by omega) (by omega) (by rw [← Nat.add_assoc]; exact he.1)),
        Nat.add_zero, drawCols_hit _ _ _ _ _ _ (by omega) j (by omega) (by omega)]
      rfl
    | succ i =>
      have e : y + (i + 1) = y + 1 + i := by omega
      rw [e, ih (y + 1) _ (by omega) i (by omega), ← e,
        drawCols_miss x0 y b 8 0 acc _ _ (fun j' _ _ he => wrapRow_ne (y0 := y) (i := 0) (i' := i + 1)
          (by omega) (by omega) he.1.symm)]
      rfl

theorem drawRows_collision (x0 y : Nat) (bs : List Byte) (acc : Frame × Bool) (hn : bs.length ≤ 32) :
    (drawRows x0 y bs acc).2 = true ↔
      acc.2 = true ∨ ∃ i j, i < bs.length ∧ j < 8 ∧
        acc.1.pixel (wrapRow (y + i)) (wrapCol (x0 + j)) = true ∧ spriteBit (bs.getD i 0) j = true := by
  induction bs generalizing y acc with
  | nil => simp [drawRows]
  | cons b bs ih =>
    simp only [List.length_cons] at hn
    simp only [drawRows]
    rw [ih (y + 1) _ (by omega), drawCols_collision _ _ _ _ _ _ (by omega)]
    have hp : ∀ i j, i < bs.length →
        (drawCols x0 y b 8 0 acc).1.pixel (wrapRow (y + 1 + i)) (wrapCol (x0 + j)) =
          acc.1.pixel (wrapRow (y + 1 + i)) (wrapCol (x0 + j)) := fun i j h1 => by
      rw [Nat.add_assoc y 1 i, drawCols_miss x0 y b 8 0 acc _ _ (fun j' _ _ he =>
        wrapRow_ne (y0 := y) (i := 0) (i' := 1 + i) (by omega) (by omega) he.1.symm)]
    constructor
    · rintro ((h | ⟨j, _, h2, h3, h4⟩) | ⟨i, j, h1, h2, h3, h4⟩)
      · exact .inl h
      · exact .inr ⟨0, j, by simp, by omega, h3, h4⟩
      · rw [hp i j h1, Nat.add_assoc y 1 i, Nat.add_comm 1 i] at h3
        exact .inr ⟨i + 1, j, by simp only [List.length_cons]; omega, h2, h3, h4⟩
    · rintro (h | ⟨i, j, h1, h2, h3, h4⟩)
      · exact .inl (.inl h)
      · simp only [List.length_cons] at h1
        cases i with
        | zero => exact .inl (.inr ⟨j, by omega, by omega, h3, h4⟩)
        | succ i =>
          refine .inr ⟨i, j, by omega, h2, ?_, h4⟩
          rw [hp i j (by omega), Nat.add_assoc y 1 i, Nat.add_comm 1 i]
          exact h3

/-- A blit at a pixel that a sprite bit targets (R172). -/
theorem draw_hit (fb : Frame) (x0 y0 : Nat) (bs : List Byte) (hn : bs.length ≤ 32) {i j : Nat} {r : Fin 32}
    {c : Fin 64} (hi : i < bs.length) (hj : j < 8) (ht : Targets x0 y0 i j r c) :
    (draw fb x0 y0 bs).1.pixel r c = xor (fb.pixel r c) (spriteBit (bs.getD i 0) j) := by
  obtain ⟨rfl, rfl⟩ := (targets_iff ..).1 ht
  exact drawRows_hit x0 y0 bs (fb, false) hn i j hi hj

/-- A blit at a pixel that no sprite bit targets (R172). -/
theorem draw_miss (fb : Frame) (x0 y0 : Nat) (bs : List Byte) {r : Fin 32} {c : Fin 64}
    (h : ∀ i j, i < bs.length → j < 8 → ¬ Targets x0 y0 i j r c) :
    (draw fb x0 y0 bs).1.pixel r c = fb.pixel r c :=
  drawRows_miss x0 y0 bs (fb, false) r c fun i j hi hj he => h i j hi hj ((targets_iff ..).2 he)

/-- When a blit collides (R172). -/
theorem draw_collision (fb : Frame) (x0 y0 : Nat) (bs : List Byte) (hn : bs.length ≤ 32) :
    (draw fb x0 y0 bs).2 = true ↔ ∃ i j r c, i < bs.length ∧ j < 8 ∧ Targets x0 y0 i j r c ∧
      fb.pixel r c = true ∧ spriteBit (bs.getD i 0) j = true := by
  unfold draw
  rw [drawRows_collision x0 y0 bs (fb, false) hn]
  constructor
  · rintro (h | ⟨i, j, h1, h2, h3, h4⟩)
    · exact absurd h Bool.false_ne_true
    · exact ⟨i, j, _, _, h1, h2, (targets_iff ..).2 ⟨rfl, rfl⟩, h3, h4⟩
  · rintro ⟨i, j, r, c, h1, h2, ht, h3, h4⟩
    obtain ⟨rfl, rfl⟩ := (targets_iff ..).1 ht
    exact .inr ⟨i, j, h1, h2, h3, h4⟩

end Sys2Proof.Machine
end

