-- ==== Sys2Proof/Laws/PerInstr.lean ====
section
/-! SUPPORT. Per instruction: its word lies in its row of the opcode map (R74, R75). -/
namespace Sys2Proof.Laws.EncodesInRow
open Sys2Proof

/-- The instruction's word matches its row: `(insn & mask) = match` (R74). -/
def Statement (i : Instr) : Prop := i.row.covers (encode i)

theorem mask_fmtNNN (f : BitVec 4) (a : Addr) : fmtNNN f a &&& 0xF000#16 = f ++ 0#12 := by
  change ((f ++ a : BitVec (4 + 12)) &&& (0xF#4 ++ 0#12)) = _
  rw [BitVec.and_append, BitVec.and_zero, show (0xF#4) = BitVec.allOnes 4 from rfl, BitVec.and_allOnes]

theorem mask_fmtXKK (f : BitVec 4) (x : Reg) (kk : Byte) :
    fmtXKK f x kk &&& 0xF000#16 = f ++ 0#4 ++ 0#8 := by
  change ((f ++ nib x ++ kk : BitVec (4 + 4 + 8)) &&& (0xF#4 ++ 0#4 ++ 0#8)) = _
  rw [BitVec.and_append, BitVec.and_append, BitVec.and_zero, BitVec.and_zero,
    show (0xF#4) = BitVec.allOnes 4 from rfl, BitVec.and_allOnes]

theorem mask_fmtXSS (f : BitVec 4) (x : Reg) (kk : Byte) :
    fmtXKK f x kk &&& 0xF0FF#16 = f ++ 0#4 ++ kk := by
  change ((f ++ nib x ++ kk : BitVec (4 + 4 + 8)) &&& (0xF#4 ++ 0#4 ++ 0xFF#8)) = _
  rw [BitVec.and_append, BitVec.and_append, BitVec.and_zero, show (0xF#4) = BitVec.allOnes 4 from rfl,
    BitVec.and_allOnes, show (0xFF#8) = BitVec.allOnes 8 from rfl, BitVec.and_allOnes]

theorem mask_fmtXYS (f : BitVec 4) (x y : Reg) (k : BitVec 4) :
    fmtXYS f x y k &&& 0xF00F#16 = f ++ 0#4 ++ 0#4 ++ k := by
  change ((f ++ nib x ++ nib y ++ k : BitVec (4 + 4 + 4 + 4)) &&& (0xF#4 ++ 0#4 ++ 0#4 ++ 0xF#4)) = _
  rw [BitVec.and_append, BitVec.and_append, BitVec.and_append, BitVec.and_zero, BitVec.and_zero,
    show (0xF#4) = BitVec.allOnes 4 from rfl, BitVec.and_allOnes, BitVec.and_allOnes]

theorem mask_fmtXYN (f : BitVec 4) (x y : Reg) (k : BitVec 4) :
    fmtXYS f x y k &&& 0xF000#16 = f ++ 0#4 ++ 0#4 ++ 0#4 := by
  change ((f ++ nib x ++ nib y ++ k : BitVec (4 + 4 + 4 + 4)) &&& (0xF#4 ++ 0#4 ++ 0#4 ++ 0#4)) = _
  rw [BitVec.and_append, BitVec.and_append, BitVec.and_append, BitVec.and_zero, BitVec.and_zero, BitVec.and_zero,
    show (0xF#4) = BitVec.allOnes 4 from rfl, BitVec.and_allOnes]

theorem cls : Statement .cls := rfl
theorem ret : Statement .ret := rfl
theorem jpAddr (addr : Addr) : Statement (.jpAddr addr) :=
  (mask_fmtNNN 0x1 addr).trans rfl
theorem callAddr (addr : Addr) : Statement (.callAddr addr) :=
  (mask_fmtNNN 0x2 addr).trans rfl
theorem seVxKk (x : Reg) (kk : Byte) : Statement (.seVxKk x kk) :=
  (mask_fmtXKK 0x3 x kk).trans rfl
theorem sneVxKk (x : Reg) (kk : Byte) : Statement (.sneVxKk x kk) :=
  (mask_fmtXKK 0x4 x kk).trans rfl
theorem seVxVy (x y : Reg) : Statement (.seVxVy x y) :=
  (mask_fmtXYS 0x5 x y 0x0).trans rfl
theorem ldVxKk (x : Reg) (kk : Byte) : Statement (.ldVxKk x kk) :=
  (mask_fmtXKK 0x6 x kk).trans rfl
theorem addVxKk (x : Reg) (kk : Byte) : Statement (.addVxKk x kk) :=
  (mask_fmtXKK 0x7 x kk).trans rfl
theorem ldVxVy (x y : Reg) : Statement (.ldVxVy x y) :=
  (mask_fmtXYS 0x8 x y 0x0).trans rfl
theorem orVxVy (x y : Reg) : Statement (.orVxVy x y) :=
  (mask_fmtXYS 0x8 x y 0x1).trans rfl
theorem andVxVy (x y : Reg) : Statement (.andVxVy x y) :=
  (mask_fmtXYS 0x8 x y 0x2).trans rfl
theorem xorVxVy (x y : Reg) : Statement (.xorVxVy x y) :=
  (mask_fmtXYS 0x8 x y 0x3).trans rfl
theorem addVxVy (x y : Reg) : Statement (.addVxVy x y) :=
  (mask_fmtXYS 0x8 x y 0x4).trans rfl
theorem subVxVy (x y : Reg) : Statement (.subVxVy x y) :=
  (mask_fmtXYS 0x8 x y 0x5).trans rfl
theorem shrVx (x y : Reg) : Statement (.shrVx x y) :=
  (mask_fmtXYS 0x8 x y 0x6).trans rfl
theorem subnVxVy (x y : Reg) : Statement (.subnVxVy x y) :=
  (mask_fmtXYS 0x8 x y 0x7).trans rfl
theorem shlVx (x y : Reg) : Statement (.shlVx x y) :=
  (mask_fmtXYS 0x8 x y 0xE).trans rfl
theorem sneVxVy (x y : Reg) : Statement (.sneVxVy x y) :=
  (mask_fmtXYS 0x9 x y 0x0).trans rfl
theorem ldIAddr (addr : Addr) : Statement (.ldIAddr addr) :=
  (mask_fmtNNN 0xA addr).trans rfl
theorem jpV0Addr (addr : Addr) : Statement (.jpV0Addr addr) :=
  (mask_fmtNNN 0xB addr).trans rfl
theorem rndVxKk (x : Reg) (kk : Byte) : Statement (.rndVxKk x kk) :=
  (mask_fmtXKK 0xC x kk).trans rfl
theorem drwVxVyN (x y : Reg) (n : RowCount) : Statement (.drwVxVyN x y n) :=
  (mask_fmtXYN 0xD x y (nib n)).trans rfl
theorem skpVx (x : Reg) : Statement (.skpVx x) :=
  (mask_fmtXSS 0xE x 0x9E).trans rfl
theorem sknpVx (x : Reg) : Statement (.sknpVx x) :=
  (mask_fmtXSS 0xE x 0xA1).trans rfl
theorem ldVxDt (x : Reg) : Statement (.ldVxDt x) :=
  (mask_fmtXSS 0xF x 0x07).trans rfl
theorem ldVxK (x : Reg) : Statement (.ldVxK x) :=
  (mask_fmtXSS 0xF x 0x0A).trans rfl
theorem ldDtVx (x : Reg) : Statement (.ldDtVx x) :=
  (mask_fmtXSS 0xF x 0x15).trans rfl
theorem ldStVx (x : Reg) : Statement (.ldStVx x) :=
  (mask_fmtXSS 0xF x 0x18).trans rfl
theorem addIVx (x : Reg) : Statement (.addIVx x) :=
  (mask_fmtXSS 0xF x 0x1E).trans rfl
theorem ldFVx (x : Reg) : Statement (.ldFVx x) :=
  (mask_fmtXSS 0xF x 0x29).trans rfl
theorem ldBVx (x : Reg) : Statement (.ldBVx x) :=
  (mask_fmtXSS 0xF x 0x33).trans rfl
theorem ldMemVx (x : Reg) : Statement (.ldMemVx x) :=
  (mask_fmtXSS 0xF x 0x55).trans rfl
theorem ldVxMem (x : Reg) : Statement (.ldVxMem x) :=
  (mask_fmtXSS 0xF x 0x65).trans rfl

end Sys2Proof.Laws.EncodesInRow
end

