-- ==== Sys2Proof/Tests/Slice0.lean ====
section
/-! SUPPORT. Tests. Words are written out bit by bit from the patterns of 30_encoding.md R75; the expected results are
the vectors of 95_test_vectors.md (their ids stand in the names or comments). Last, one witness for the hypotheses of
each statement. -/
namespace Sys2Proof.Tests
open Sys2Proof Sys2Proof.Machine

/-! ### Decoding: one word for every constructor (R75) -/

theorem test_decode_family_0 :
    decodeWord 0b0000_0000_1110_0000 = some .cls ∧ decodeWord 0b0000_0000_1110_1110 = some .ret := by decide

theorem test_decode_jumps :
    decodeWord 0b0001_1010_1011_1100 = some (.jpAddr 0xABC) ∧
    decodeWord 0b0010_0011_0000_0001 = some (.callAddr 0x301) ∧
    decodeWord 0b1011_1111_1111_1110 = some (.jpV0Addr 0xFFE) := by decide

theorem test_decode_skips :
    decodeWord 0b0011_0011_0100_0010 = some (.seVxKk 3 0x42) ∧
    decodeWord 0b0100_0011_0100_0011 = some (.sneVxKk 3 0x43) ∧
    decodeWord 0b0101_0011_0100_0000 = some (.seVxVy 3 4) ∧
    decodeWord 0b1001_0011_0101_0000 = some (.sneVxVy 3 5) := by decide

theorem test_decode_immediates :
    decodeWord 0b0110_0010_1010_1011 = some (.ldVxKk 2 0xAB) ∧
    decodeWord 0b0111_1111_0000_0001 = some (.addVxKk 15 0x01) ∧
    decodeWord 0b1100_0001_0000_1111 = some (.rndVxKk 1 0x0F) := by decide

theorem test_decode_family_8 :
    decodeWord 0b1000_0001_0010_0000 = some (.ldVxVy 1 2) ∧
    decodeWord 0b1000_0001_0010_0001 = some (.orVxVy 1 2) ∧
    decodeWord 0b1000_0001_0010_0010 = some (.andVxVy 1 2) ∧
    decodeWord 0b1000_0001_0010_0011 = some (.xorVxVy 1 2) ∧
    decodeWord 0b1000_0001_0010_0100 = some (.addVxVy 1 2) ∧
    decodeWord 0b1000_0001_0010_0101 = some (.subVxVy 1 2) ∧
    decodeWord 0b1000_0001_0010_0110 = some (.shrVx 1 2) ∧
    decodeWord 0b1000_0001_0010_0111 = some (.subnVxVy 1 2) ∧
    decodeWord 0b1000_0001_0010_1110 = some (.shlVx 1 2) := by decide

theorem test_decode_index_and_draw :
    decodeWord 0b1010_0001_0010_0011 = some (.ldIAddr 0x123) ∧
    decodeWord 0b1101_0010_1111_0001 = some (.drwVxVyN 2 15 1) := by decide

theorem test_decode_family_E :
    decodeWord 0b1110_0001_1001_1110 = some (.skpVx 1) ∧
    decodeWord 0b1110_0001_1010_0001 = some (.sknpVx 1) := by decide

theorem test_decode_family_F :
    decodeWord 0b1111_0001_0000_0111 = some (.ldVxDt 1) ∧
    decodeWord 0b1111_0011_0000_1010 = some (.ldVxK 3) ∧
    decodeWord 0b1111_0001_0001_0101 = some (.ldDtVx 1) ∧
    decodeWord 0b1111_0001_0001_1000 = some (.ldStVx 1) ∧
    decodeWord 0b1111_1111_0001_1110 = some (.addIVx 15) ∧
    decodeWord 0b1111_0001_0010_1001 = some (.ldFVx 1) ∧
    decodeWord 0b1111_0001_0011_0011 = some (.ldBVx 1) ∧
    decodeWord 0b1111_0011_0101_0101 = some (.ldMemVx 3) ∧
    decodeWord 0b1111_0011_0110_0101 = some (.ldVxMem 3) := by decide

/-- Section 2.6: words that match no row (R76). -/
theorem test_decode_unknown_words :
    ([0x0000, 0x0123, 0x00E1, 0x00FE, 0x5121, 0x8128, 0x812F, 0x9125, 0xE100, 0xE19F, 0xF100, 0xF10B, 0xF175, 0xF185,
      0xFFFF] : List Word).all (fun w => decodeWord w == none) = true := by decide

/-- R52: the byte at the lower address is the most significant. -/
theorem test_decode_byte_order :
    decodeBytes [0x12, 0x0A, 0xFF] = .ok (.jpAddr 0x20A, [0xFF]) ∧
    decodeBytes [0x81, 0x28] = .error (.unknownWord 0x8128) ∧ decodeBytes [0x12] = .error .truncated := by decide

/-! ### WellFormed smoke -/

/-- A machine with the row `Annn` off (D8). -/
def annnOff : Config := { Config.standard with annnDefined := false }

theorem test_wellformed_refuses_annn_when_off : Instr.wellFormed annnOff (.ldIAddr 0x123) = false := by decide
theorem test_wellformed_accepts_annn_when_on : Instr.wellFormed Config.standard (.ldIAddr 0x123) = true := by decide
theorem test_decode_refuses_annn_when_off : decodeFor annnOff 0xA123 = none := by decide

/-! ### One step from reset (the Conventions of 95_test_vectors.md) -/

/-- Registers set on top of a state. -/
def regs (l : List (Reg × Byte)) (s : State) : State := l.foldl (fun s p => s.setReg p.1 p.2) s

/-- The reset state with registers set. -/
def start (l : List (Reg × Byte)) : State := regs l State.reset

/-- Bytes placed in memory. -/
def bytes (a : Nat) (bs : List Byte) (s : State) : State := { s with mem := s.mem.setAll s.cfg.font a bs }

/-- Pixels of row 0 turned on. -/
def lit (cols : List (Fin 64)) (s : State) : State :=
  { s with fb := cols.foldl (fun fb c => fb.setPixel 0 c true) s.fb }

/-- Inputs of the next tick. -/
def input (keys : BitVec 16) (random : Byte) (s : State) : State :=
  { s with inputs := [{ keys := keys, highKey := false, random := random }] }

/-- CADENCE other than 1. -/
def every (n : Nat) (h : 0 < n) (s : State) : State := { s with cfg := { s.cfg with cadence := n, cadence_pos := h } }

/-- What one tick of the word gives, seen through `f`; `none` if it raises an error. -/
def after {α : Type} (w : Nat) (s : State) (f : State → α) : Option α :=
  match step (s.withFetchWord 16 w) with
  | .next t => some (f t)
  | _ => none

/-- The error one tick of the word raises. -/
def errorOf (w : Nat) (s : State) : Option Fault :=
  match step (s.withFetchWord 16 w) with
  | .fault f => some f
  | _ => none

/-- The columns of a row that are on. -/
def onCols (r : Fin 32) (s : State) : List Nat :=
  ((List.finRange 64).filter fun c => s.fb.pixel r c).map Fin.val

/-- Register `V1`, `V2`, VF after a tick. -/
def v12F (s : State) : Byte × Byte × Byte := (s.reg 1, s.reg 2, s.reg vf)

/-- CF1, CF7. -/
theorem test_jp : after 0x1ABC State.reset (fun t => (t.pc, t.ticks)) = some (0xABC, 1) := by decide
theorem test_jpV0 : after 0xBFFF (start [(0, 0xFF)]) State.pc = some 0x10FE := by decide
/-- CF3, CF5. -/
theorem test_call :
    after 0x2300 State.reset (fun t => (t.sp, t.stack.get 1, t.stack.get 0, t.pc)) = some (1, 0x202, 0, 0x300) := by
  decide
theorem test_call_overflow : errorOf 0x2300 { State.reset with sp := 15 } = some (.stackOverflow 15) := by decide
/-- CF4, CF6. -/
theorem test_ret :
    after 0x00EE { State.reset with sp := 1, stack := State.reset.stack.set 1 0x222 }
      (fun t => (t.pc, t.sp, t.stack.get 1)) = some (0x222, 0, 0x222) := by decide
theorem test_ret_underflow : errorOf 0x00EE State.reset = some (.stackUnderflow 0) := by decide
/-- CF9 to CF12. -/
theorem test_se_imm :
    after 0x3342 (start [(3, 0x42)]) State.pc = some 0x204 ∧ after 0x3343 (start [(3, 0x42)]) State.pc = some 0x202 := by
  decide
theorem test_sne_imm :
    after 0x4342 (start [(3, 0x42)]) State.pc = some 0x202 ∧ after 0x4343 (start [(3, 0x42)]) State.pc = some 0x204 := by
  decide
theorem test_se_reg :
    after 0x5340 (start [(3, 0x42), (4, 0x42), (5, 1)]) State.pc = some 0x204 ∧
    after 0x5350 (start [(3, 0x42), (4, 0x42), (5, 1)]) State.pc = some 0x202 := by decide
theorem test_sne_reg :
    after 0x9340 (start [(3, 0x42), (4, 0x42), (5, 1)]) State.pc = some 0x202 ∧
    after 0x9350 (start [(3, 0x42), (4, 0x42), (5, 1)]) State.pc = some 0x204 := by decide
/-- CF15, CF16. -/
theorem test_fetch_at_the_top :
    step { State.reset with pc := 0xFFF } = .fault (.memoryOutOfRange 0xFFF) ∧
    after 0x0000 { State.reset with pc := 0xFFE } State.pc = some 0x1000 := ⟨rfl, by decide⟩

/-- AL1 to AL8. -/
theorem test_ld_imm : after 0x62AB (start [(2, 0xFF), (15, 0x77)]) v12F = some (0, 0xAB, 0x77) := by decide
theorem test_add_imm_wraps : after 0x7201 (start [(2, 0xFF), (15, 0x77)]) v12F = some (0, 0x00, 0x77) := by decide
theorem test_ld_reg : after 0x8120 (start [(1, 0xCA), (2, 0x53), (15, 0x77)]) v12F = some (0x53, 0x53, 0x77) := by decide
theorem test_or : after 0x8121 (start [(1, 0xCA), (2, 0x53), (15, 0x77)]) v12F = some (0xDB, 0x53, 0x77) := by decide
theorem test_and : after 0x8122 (start [(1, 0xCA), (2, 0x53), (15, 0x77)]) v12F = some (0x42, 0x53, 0x77) := by decide
theorem test_xor : after 0x8123 (start [(1, 0xCA), (2, 0x53), (15, 0x77)]) v12F = some (0x99, 0x53, 0x77) := by decide
/-- AD1 and AD4; AD6 and AD7. -/
theorem test_add :
    after 0x8124 (start [(1, 0xFF), (2, 1)]) v12F = some (0, 1, 1) ∧
    after 0x8124 (start [(1, 0xFE), (2, 1), (15, 0x77)]) v12F = some (0xFF, 1, 0) := by decide
theorem test_add_into_vf :
    after 0x8F24 (start [(15, 0xFF), (2, 1)]) v12F = some (0, 1, 1) ∧
    after 0x8F24 (start [(15, 0x01), (2, 1)]) v12F = some (0, 1, 0) := by decide
/-- SB2 and SB3; SB5 and SB7. -/
theorem test_sub :
    after 0x8125 (start [(1, 3), (2, 5)]) v12F = some (0xFE, 5, 0) ∧
    after 0x8125 (start [(1, 7), (2, 7)]) v12F = some (0, 7, 1) := by decide
theorem test_sub_with_vf :
    after 0x8F25 (start [(15, 5), (2, 3)]) v12F = some (0, 3, 2) ∧
    after 0x81F5 (start [(1, 5), (15, 3)]) v12F = some (2, 0, 1) := by decide
/-- SR1, SR5. -/
theorem test_shr : after 0x8126 (start [(1, 5), (2, 0xAA)]) v12F = some (2, 0xAA, 1) := by decide
theorem test_shr_vf : after 0x8F26 (start [(15, 2)]) v12F = some (0, 0, 1) := by decide
/-- SN2; SN4 and SN6. -/
theorem test_subn : after 0x8127 (start [(1, 5), (2, 3)]) v12F = some (5, 0xFE, 0) := by decide
theorem test_subn_with_vf :
    after 0x81F7 (start [(1, 3), (15, 5)]) v12F = some (3, 0, 2) ∧
    after 0x8F27 (start [(15, 4), (2, 9)]) v12F = some (0, 5, 1) := by decide
/-- SL1, SL4. -/
theorem test_shl : after 0x812E (start [(1, 0x81), (2, 0xAA)]) v12F = some (2, 0xAA, 1) := by decide
theorem test_shl_vf : after 0x8F2E (start [(15, 0x40)]) v12F = some (0, 0, 0x80) := by decide
/-- RN1, RN4. -/
theorem test_rnd :
    after 0xC10F (input 0 0xAB (start [(1, 0x55), (15, 0x77)])) v12F = some (0x0B, 0, 0x77) ∧
    after 0xCFF0 (input 0 0xAB (start [])) v12F = some (0, 0, 0xA0) := by decide

/-- IX1. -/
theorem test_ld_i : after 0xAFFF State.reset State.i = some 0xFFF := by decide
theorem test_ld_i_off : after 0xA123 { State.reset with cfg := annnOff } (fun t => (t.i, t.pc)) = some (0, 0x202) := by
  decide
/-- IX3, IX4. -/
theorem test_add_i :
    after 0xF11E ({ start [(1, 1), (15, 0x77)] with i := 0xFFF }) (fun t => (t.i, t.reg vf)) = some (0x1000, 0x77) ∧
    after 0xF11E ({ start [(1, 0xFF)] with i := 0xFFF0 }) State.i = some 0x00EF := by decide
/-- IX7. -/
theorem test_ld_f : after 0xF129 (start [(1, 0xFF)]) State.i = some 0x04FB := by decide
/-- BC2, BC3 and BC4. -/
theorem test_bcd :
    after 0xF133 { start [(1, 109)] with i := 0x300 }
      (fun t => (t.readByte 0x300, t.readByte 0x301, t.readByte 0x302)) = some (1, 0, 9) := by decide
theorem test_bcd_at_the_top :
    after 0xF133 { start [(1, 199)] with i := 0xFFD } (fun t => t.readByte 0xFFF) = some 9 ∧
    errorOf 0xF133 { start [(1, 199)] with i := 0xFFE } = some (.memoryOutOfRange 0xFFE) := by decide
/-- ST1; ST4 and ST5. -/
theorem test_store :
    after 0xF355 { start [(0, 0x10), (1, 0x11), (2, 0x12), (3, 0x13), (4, 0x14)] with i := 0x300 }
      (fun t => (t.readByte 0x300, t.readByte 0x303, t.readByte 0x304, t.i)) = some (0x10, 0x13, 0, 0x300) := by decide
theorem test_store_at_the_top :
    after 0xF055 { start [(0, 0x10)] with i := 4095 } (fun t => t.readByte 4095) = some 0x10 ∧
    errorOf 0xF155 { start [(0, 0x10)] with i := 4095 } = some (.memoryOutOfRange 4095) := by decide
/-- LD6; LD5. -/
theorem test_load :
    after 0xF465 (start [(5, 0x77)]) (fun t => (t.reg 0, t.reg 1, t.reg 4, t.reg 5)) = some (0xF0, 0x90, 0xF0, 0x77) := by
  decide
theorem test_load_out_of_range : errorOf 0xF165 { State.reset with i := 4095 } = some (.memoryOutOfRange 4095) := by decide

/-- CL1. -/
theorem test_cls : after 0x00E0 (lit [3, 5] (start [(15, 0x77)])) (fun t => (onCols 0 t, t.reg vf)) = some ([], 0x77) := by
  decide
/-- DR3, DR7. -/
theorem test_drw_wraps :
    after 0xD011 (bytes 0x300 [0xFF] { start [(0, 60), (15, 0x77)] with i := 0x300 })
      (fun t => (onCols 0 t, t.reg vf)) = some ([0, 1, 2, 3, 60, 61, 62, 63], 0) := by decide
theorem test_drw_collides :
    after 0xD011 (bytes 0x300 [0x80] (lit [0, 1] { State.reset with i := 0x300 }))
      (fun t => (onCols 0 t, t.reg vf)) = some ([1], 1) := by decide

/-- KY1, KY2. -/
theorem test_skp :
    after 0xE19E (input 0x80 0 (start [(1, 7)])) State.pc = some 0x204 ∧
    after 0xE19E (input 0x40 0 (start [(1, 7)])) State.pc = some 0x202 := by decide
/-- KY3, KY4. -/
theorem test_sknp :
    after 0xE1A1 (input 0x80 0 (start [(1, 7)])) State.pc = some 0x202 ∧
    after 0xE1A1 (input 0 0 (start [(1, 7)])) State.pc = some 0x204 := by decide
/-- KW1; tick 1 of the wait-for-key table. -/
theorem test_wait_key_at_once :
    after 0xF30A (input 0x8004 0 State.reset) (fun t => (t.reg 3, t.wait, t.pc)) = some (2, ⟨false, 0⟩, 0x202) := by decide
theorem test_wait_key_waits :
    after 0xF30A (input 0 0 { start [(3, 0x77)] with dt := 10 }) (fun t => (t.reg 3, t.wait, t.pc, t.ticks, t.dt)) =
      some (0x77, ⟨true, 3⟩, 0x202, 1, 9) := by decide
/-- Tick 3 of the wait-for-key table. -/
theorem test_poll_takes_the_lowest_key :
    (match step (input 0x210 0 { State.reset with wait := ⟨true, 3⟩, pc := 0x202 }) with
      | .next t => some (t.reg 3, t.wait, t.pc)
      | _ => none) = some (4, ⟨false, 3⟩, 0x202) := by decide
/-- TM2; TM3 and TM4. -/
theorem test_ld_dt : after 0xF107 { State.reset with dt := 42, st := 3 } (fun t => (t.reg 1, t.dt, t.st)) = some (42, 41, 2) := by
  decide
theorem test_set_dt :
    after 0xF115 (every 2 (by decide) (start [(1, 9)])) (fun t => (t.dt, t.ticks)) = some (9, 1) ∧
    after 0xF115 (every 2 (by decide) { start [(1, 9)] with ticks := 1 }) (fun t => (t.dt, t.ticks)) = some (8, 2) := by
  decide
theorem test_set_st :
    after 0xF118 (every 2 (by decide) (start [(1, 9)])) (fun t => (t.st, t.ticks)) = some (9, 1) ∧
    after 0xF118 (every 2 (by decide) { start [(1, 9)] with ticks := 1 }) (fun t => (t.st, t.ticks)) = some (8, 2) := by
  decide
/-- TM7; the outcome codes of R214. -/
theorem test_ticks_wrap :
    after 0x0000 (every 2 (by decide) { State.reset with ticks := 0xFFFFFFFFFFFFFFFF, dt := 1 })
      (fun t => (t.ticks, t.dt)) = some (0, 0) := by decide
theorem test_outcome_codes :
    [TickOutcome.completed, .stillWaiting, .error (.stackOverflow 15), .error (.stackUnderflow 0),
      .error (.memoryOutOfRange 0xFFF)].map TickOutcome.code = [0, 1, 2, 3, 4] := by decide
/-- RS1. -/
theorem test_reset :
    (resetLoad { Config.standard with startOffset := .eti660 } [0x12, 0x00] State.reset).1.pc = 0x600 ∧
    (resetLoad { Config.standard with startOffset := .eti660 } [0x12, 0x00] State.reset).1.readByte 0x600 = 0x12 := by
  decide

/-! ### Witnesses: the hypotheses of each statement are met, clause by clause, at the boundary where there is one -/

/-- The reset state with the word at PC. -/
def word (w : Nat) : State := State.reset.withFetchWord 16 w

theorem witness_EncodingADecodedWordGivesItBack : decodeWord 0x8127 = some (.subnVxVy 1 2) := by decide
theorem witness_DecodingFollowsTheOpcodeMap :
    decodeWord 0xF365 = some (.ldVxMem 3) ∧ (Instr.ldVxMem 3).row.covers 0xFF65 := ⟨by decide, rfl⟩
theorem witness_StepRunsTheDecodedInstruction_next :
    Fetches (word 0x1200) ∧ decodeFor (word 0x1200).cfg (wordAtPc (word 0x1200)) = some (.jpAddr 0x200) ∧
    ∃ t, exec (.jpAddr 0x200) { word 0x1200 with pc := (word 0x1200).pc + 2 } = .next t :=
  ⟨⟨rfl, rfl, by decide⟩, by decide, _, rfl⟩
theorem witness_StepRunsTheDecodedInstruction_fault :
    Fetches (word 0x00EE) ∧ decodeFor (word 0x00EE).cfg (wordAtPc (word 0x00EE)) = some .ret ∧
    exec .ret { word 0x00EE with pc := (word 0x00EE).pc + 2 } = .fault (.stackUnderflow 0) :=
  ⟨⟨rfl, rfl, by decide⟩, by decide, rfl⟩
/-- With CADENCE = 1 the first tick decrements, with CADENCE = 2 it does not. -/
theorem witness_AnUnknownWordIsACountedNoOp :
    Fetches State.reset ∧ decodeFor State.reset.cfg (wordAtPc State.reset) = none ∧
    (State.reset.ticks + 1).toNat % State.reset.cfg.cadence = 0 ∧
    (State.reset.ticks + 1).toNat % (every 2 (by decide) State.reset).cfg.cadence ≠ 0 :=
  ⟨⟨rfl, rfl, by decide⟩, by decide, by decide, by decide⟩
theorem witness_FetchAbove4094RaisesMemoryOutOfRange :
    State.reset.hasReset = true ∧ State.reset.wait.active = false ∧
    4094 < ({ State.reset with pc := 4095 } : State).pc.toNat := ⟨rfl, rfl, by decide⟩

/-- The reset state waiting for a key into V3. -/
def waiting (keys : BitVec 16) : State := input keys 0 { State.reset with wait := ⟨true, 3⟩ }

/-- Keys 0 and 15 are the ends of the range; with no key held both settings of KEYWAIT_TIMERS_RUN occur; the tick that is
counted decrements with CADENCE = 1 and does not with CADENCE = 2. -/
theorem witness_AWaitingTickOnlyPollsTheKeys :
    (waiting 0x8001).hasReset = true ∧ (waiting 0x8001).wait.active = true ∧ LowestHeld (waiting 0x8001) 0 ∧
    LowestHeld (waiting 0x8000) 15 ∧ NoKeyHeld (waiting 0) ∧ (waiting 0).cfg.keywaitTimersRun = true ∧
    ({ Config.standard with keywaitTimersRun := false } : Config).keywaitTimersRun = false ∧
    ((waiting 0).ticks + 1).toNat % (waiting 0).cfg.cadence = 0 ∧
    ((waiting 0).ticks + 1).toNat % (every 2 (by decide) (waiting 0)).cfg.cadence ≠ 0 := by
  refine ⟨rfl, rfl, ⟨by decide, by decide, fun j hj => absurd hj (Nat.not_lt_zero j)⟩, ?_, ?_, rfl, rfl, by decide, by decide⟩
  · unfold LowestHeld; decide
  · unfold NoKeyHeld; decide
theorem witness_TimersFallWhenTicksReachesAMultipleOfCadence :
    State.reset.counted = true ∧ State.reset.endTick.ticks.toNat % State.reset.cfg.cadence = 0 ∧
    (every 2 (by decide) State.reset).counted = true ∧
    (every 2 (by decide) State.reset).endTick.ticks.toNat % (every 2 (by decide) State.reset).cfg.cadence ≠ 0 := by
  decide
theorem witness_OnlyAMachineNeverResetIsRefused :
    State.reset.hasReset = true ∧ ({ State.reset with hasReset := false } : State).hasReset = false := by decide
theorem witness_AnErrorRepeatsWhateverTheInputs : step (word 0x00EE) = .fault (.stackUnderflow 0) := rfl
theorem witness_AJumpToItselfIsAFixedPoint :
    Fetches (word 0x1200) ∧ decodeFor (word 0x1200).cfg (wordAtPc (word 0x1200)) = some (.jpAddr 0x200) ∧
    (0x200 : Addr).toNat = (word 0x1200).pc.toNat := ⟨⟨rfl, rfl, by decide⟩, by decide, by decide⟩
theorem witness_EveryStepKeepsTheInvariant : Inv (word 0x2300) ∧ ∃ t, step (word 0x2300) = .next t :=
  ⟨⟨by decide, by decide, by decide, by decide, by decide⟩, _, rfl⟩
theorem witness_TheInvariantHoldsAfterEveryLoad :
    ∃ t, resetLoad Config.standard [0x12, 0x00] State.reset = (t, .ok) := ⟨_, rfl⟩

theorem witness_OnlyThreeInstructionsChangeI :
    ∃ t, exec (.ldIAddr 0x123) State.reset = .next t ∧ t.i ≠ State.reset.i := ⟨_, rfl, by decide⟩
theorem witness_OnlyTheTwoStoresChangeMemory :
    ∃ t, exec (.ldBVx 1) { start [(1, 200)] with i := 4093 } = .next t ∧
      t.readByte 4093 ≠ State.readByte { start [(1, 200)] with i := 4093 } 4093 := ⟨_, rfl, by decide⟩
theorem witness_OnlyClearAndDrawChangeTheFrame :
    ∃ t, exec .cls (lit [0] State.reset) = .next t ∧ t.fb ≠ (lit [0] State.reset).fb := by
  refine ⟨_, rfl, fun h => ?_⟩
  have := congrArg (fun fb : Frame => fb.pixel 0 0) h
  exact absurd this (by decide)
theorem witness_OnlyCallAndReturnMoveTheStack :
    ∃ t, exec (.callAddr 0x300) State.reset = .next t ∧ t.stack.get 1 = State.reset.pc ∧
      t.stack.get 1 ≠ State.reset.stack.get 1 ∧ t.sp ≠ State.reset.sp := ⟨_, rfl, by decide, by decide, by decide⟩
theorem witness_VfChangesOnlyAsAFlagOrANamedDestination :
    ∃ t, exec (.addVxVy 1 2) (start [(1, 0xFF), (2, 1)]) = .next t ∧
      t.reg vf ≠ (start [(1, 0xFF), (2, 1)]).reg vf := ⟨_, rfl, by decide⟩
theorem witness_OnlyControlTransfersWritePc :
    ∃ t, exec (.jpAddr 0x300) State.reset = .next t ∧ t.pc ≠ State.reset.pc := ⟨_, rfl, by decide⟩
theorem witness_TimersWaitAndSetupHaveTheirOneWriter_timers :
    (∃ t, exec (.ldDtVx 1) (start [(1, 9)]) = .next t ∧ t.dt ≠ (start [(1, 9)]).dt) ∧
    (∃ t, exec (.ldStVx 1) (start [(1, 9)]) = .next t ∧ t.st ≠ (start [(1, 9)]).st) :=
  ⟨⟨_, rfl, by decide⟩, ⟨_, rfl, by decide⟩⟩
theorem witness_TimersWaitAndSetupHaveTheirOneWriter_wait :
    ∃ t, exec (.ldVxK 3) (input 0 0 State.reset) = .next t ∧ t.wait ≠ (input 0 0 State.reset).wait :=
  ⟨_, rfl, by decide⟩
theorem witness_InputsReachOnlyFourInstructions :
    (∀ x kk, Instr.addVxVy 1 2 ≠ .rndVxKk x kk) ∧
    (∀ x, Instr.addVxVy 1 2 ≠ .skpVx x ∧ Instr.addVxVy 1 2 ≠ .sknpVx x ∧ Instr.addVxVy 1 2 ≠ .ldVxK x) ∧
    ∃ t, exec (.addVxVy 1 2) State.reset = .next t := ⟨by simp, by simp, _, rfl⟩

/-- SP at both sides of the bound. -/
theorem witness_CallPushesTheReturnAddress :
    ({ State.reset with sp := 14 } : State).sp ≠ 15 ∧ ({ State.reset with sp := 15 } : State).sp = 15 := by decide
theorem witness_ReturnPopsTheReturnAddress :
    ({ State.reset with sp := 1 } : State).sp ≠ 0 ∧ State.reset.sp = 0 := by decide
theorem witness_ReturnAfterCallComesBack :
    ∃ t, exec (.callAddr 0x300) { State.reset with sp := 14 } = .next t ∧ t.sp = 15 := ⟨_, rfl, by decide⟩
theorem witness_SkipsOnAnImmediate : (start [(3, 0x42)]).reg 3 = 0x42 ∧ (start [(3, 0x42)]).reg 3 ≠ 0x43 := by decide
theorem witness_SkipsOnTwoRegisters :
    (start [(3, 0x42), (4, 0x42)]).reg 3 = (start [(3, 0x42), (4, 0x42)]).reg 4 ∧
    (start [(3, 0x42), (4, 0x42)]).reg 3 ≠ (start [(3, 0x42), (4, 0x42)]).reg 5 ∧
    (1 : BitVec 4) ≠ 0 ∧ (15 : BitVec 4) ≠ 0 := by decide
theorem witness_ASkipTickMovesPcByFourOrTwo :
    Fetches (word 0x3342) ∧ decodeFor (word 0x3342).cfg (wordAtPc (word 0x3342)) = some (.seVxKk 3 0x42) :=
  ⟨⟨rfl, rfl, by decide⟩, by decide⟩
/-- A destination that is VF and one that is not (the additions, subtractions and shifts that write a flag). -/
theorem witness_FlagProducers : (1 : Reg) ≠ vf ∧ (15 : Reg) = vf := by decide
theorem witness_RandomIsTheMaskedByteOfTheTick :
    (input 0 0xAB State.reset).inputs = { keys := 0, highKey := false, random := 0xAB } :: [] := rfl
theorem witness_DecimalDigitsAreStoredAtI :
    ({ State.reset with i := 4093 } : State).i.toNat ≤ 4093 ∧
    4093 < ({ State.reset with i := 4094 } : State).i.toNat := by decide
/-- With `x = 15`, I = 4080 is the last in range (statements for `Fx55` and `Fx65`). -/
theorem witness_RegistersAreStoredAtI :
    ({ State.reset with i := 4080 } : State).i.toNat + (15 : Reg).val ≤ 4095 ∧
    4095 < ({ State.reset with i := 4081 } : State).i.toNat + (15 : Reg).val := by decide
theorem witness_RegistersAreLoadedFromI :
    ({ State.reset with i := 4095 } : State).i.toNat + (0 : Reg).val ≤ 4095 ∧
    4095 < ({ State.reset with i := 4095 } : State).i.toNat + (1 : Reg).val := by decide
theorem witness_StoredRegistersComeBack :
    ∃ t u : State, exec (.ldMemVx 15) { State.reset with i := 4080 } = .next t ∧
      u.i = ({ State.reset with i := 4080 } : State).i ∧ ∀ a, u.readByte a = t.readByte a :=
  ⟨_, _, rfl, rfl, fun _ => rfl⟩
theorem witness_AStoreIsSeenByTheNextFetch :
    ∃ t, exec (.ldMemVx 1) { State.reset with i := 0x200 } = .next t ∧ (1 : Reg).val = (0 : Reg).val + 1 ∧
      (1 : Reg) ≤ 1 ∧ t.pc.toNat = ({ State.reset with i := 0x200 } : State).i.toNat + (0 : Reg).val :=
  ⟨_, rfl, by decide, by decide, by decide⟩
/-- Bytes at both ends of memory, each other than what an unlisted address reads as. -/
theorem witness_CanonicalMemoriesThatReadTheSameAreEqual :
    Memory.wf Config.defaultFont [(0, 0x00), (4095, 0x01)] = true := by decide
/-- No row at an I beyond memory; the last rows in range; one too many. -/
theorem witness_DrawXorsTheSpriteAndReportsCollision :
    (0 : RowCount) = 0 ∧ ({ State.reset with i := 4081 } : State).i.toNat + (15 : RowCount).val - 1 ≤ 4095 ∧
    ((15 : RowCount) ≠ 0 ∧ 4095 < ({ State.reset with i := 4082 } : State).i.toNat + (15 : RowCount).val - 1) ∧
    Targets 255 255 14 7 13 6 := ⟨rfl, by decide, by decide, by unfold Targets; decide⟩
theorem witness_DrawingTwiceRestoresTheFrame :
    (0 : Reg) ≠ vf ∧ (1 : Reg) ≠ vf ∧ ∃ t, exec (.drwVxVyN 0 1 5) State.reset = .next t :=
  ⟨by decide, by decide, _, exec_drwVxVyN_next 0 1 5 (.inr (by decide))⟩
theorem witness_KeySkipsFollowTheKeyNumberedVx :
    (input 0x8000 0 (start [(1, 15)])).keyHeld ((start [(1, 15)]).reg 1).toNat = true ∧
    (input 0 0 (start [(1, 15)])).keyHeld ((start [(1, 15)]).reg 1).toNat = false ∧
    (input 0x8000 0 State.reset).inputs = { keys := 0x8000, highKey := false, random := 0 } :: [] ∧
    (0x9F : Byte) ≠ 0x9E ∧ (0x9F : Byte) ≠ 0xA1 := by decide
theorem witness_WaitForKeyTakesTheLowestHeldKeyOrWaits :
    LowestHeld (input 0x8000 0 State.reset) 15 ∧ NoKeyHeld (input 0 0 State.reset) := by
  unfold LowestHeld NoKeyHeld; decide
theorem witness_ATimerSetInADecrementingTickLosesOneCount :
    Fetches (word 0xF115) ∧ decodeFor (word 0xF115).cfg (wordAtPc (word 0xF115)) = some (.ldDtVx 1) ∧
    ((word 0xF115).ticks + 1).toNat % (word 0xF115).cfg.cadence = 0 ∧
    ((word 0xF115).ticks + 1).toNat % (every 2 (by decide) (word 0xF115)).cfg.cadence ≠ 0 :=
  ⟨⟨rfl, rfl, by decide⟩, by decide, by decide, by decide⟩
theorem witness_ATimerSetInADecrementingTickLosesOneCount_sound :
    Fetches (word 0xF118) ∧ decodeFor (word 0xF118).cfg (wordAtPc (word 0xF118)) = some (.ldStVx 1) ∧
    ((word 0xF118).ticks + 1).toNat % (word 0xF118).cfg.cadence = 0 ∧
    ((word 0xF118).ticks + 1).toNat % (every 2 (by decide) (word 0xF118)).cfg.cadence ≠ 0 :=
  ⟨⟨rfl, rfl, by decide⟩, by decide, by decide, by decide⟩
theorem witness_LoadLeavesTheResetValues :
    StartOffset.chip8.addr.toNat + (List.replicate 3584 (0xAA : Byte)).length ≤ 4096 := by
  rw [List.length_replicate]; decide
/-- The largest image and one byte more, at both offsets (RS2, RS3). -/
theorem witness_ATooLargeImageChangesNothing :
    (4096 < StartOffset.chip8.addr.toNat + (List.replicate 3585 (0xAA : Byte)).length ∧
      StartOffset.chip8.addr.toNat + (List.replicate 3584 (0xAA : Byte)).length ≤ 4096) ∧
    (4096 < StartOffset.eti660.addr.toNat + (List.replicate 2561 (0xAA : Byte)).length ∧
      StartOffset.eti660.addr.toNat + (List.replicate 2560 (0xAA : Byte)).length ≤ 4096) := by
  simp only [List.length_replicate]; decide
theorem witness_TheFirstFetchReadsTheImage :
    ∃ t, resetLoad Config.standard [0xAB] State.reset = (t, .ok) := ⟨_, rfl⟩

end Sys2Proof.Tests
end

/-! SUPPORT. What an instruction that completes can do to the state, said once (`Effect`, `exec_effect`), and which
parts of the state each effect leaves alone; then the statements about the state (10_state.md), from these. -/
namespace Sys2Proof.Machine
open Sys2Proof

/-! ### The effects of the instructions -/

/-- The six skips (R114 to R117, R190, R191). -/
def Skips (i : Instr) : Prop :=
  (∃ x kk, i = .seVxKk x kk ∨ i = .sneVxKk x kk) ∨ (∃ x y, i = .seVxVy x y ∨ i = .sneVxVy x y) ∨
  (∃ x, i = .skpVx x ∨ i = .sknpVx x)

/-- The instructions that write one register, the one they name, and no flag (R130 to R135, R141, R192). -/
def LoadsReg (x : Reg) (i : Instr) : Prop :=
  (∃ kk, i = .ldVxKk x kk ∨ i = .addVxKk x kk ∨ i = .rndVxKk x kk) ∨
  (∃ y, i = .ldVxVy x y ∨ i = .orVxVy x y ∨ i = .andVxVy x y ∨ i = .xorVxVy x y) ∨ i = .ldVxDt x

/-- The flag producers that write the result last (R137 to R140, R143). -/
def WritesFlagFirst (i : Instr) : Prop :=
  ∃ x y, i = .subVxVy x y ∨ i = .shrVx x y ∨ i = .subnVxVy x y ∨ i = .shlVx x y

/-- The instructions that write I (R22). -/
def WritesI (i : Instr) : Prop := (∃ a, i = .ldIAddr a) ∨ (∃ x, i = .addIVx x) ∨ (∃ x, i = .ldFVx x)

/-- The jumps, with the PC they write in the state `s` (R111, R113). -/
def JumpsTo (s : State) (w : Word) (i : Instr) : Prop :=
  ∃ a, (i = .jpAddr a ∧ w = addrWord a) ∨ (i = .jpV0Addr a ∧ w = addrWord a + byteWord (s.reg 0))

/-- The stores, with the bytes they write in the state `s` (R153, R154). -/
def Stores (s : State) (bs : List Byte) (i : Instr) : Prop :=
  ∃ x, (i = .ldBVx x ∧ bs = decimalDigits (s.reg x)) ∨ (i = .ldMemVx x ∧ bs = s.regsUpTo x)

/-- The next state of an instruction that completes in the state `s`, by the parts of the state that it writes. A value
that goes into a register, the frame, I or a flag stays open here: it is the meaning's own. -/
inductive Effect (s : State) : Instr → State → Prop
  | clear : Effect s .cls { s with fb := Frame.clear }
  | draw (x y : Reg) (n : RowCount) (fb : Frame) (c : Bool) :
      Effect s (.drwVxVyN x y n) (State.setFlag { s with fb := fb } c)
  | ret (h : s.sp ≠ 0) : Effect s .ret { s with sp := s.sp - 1, pc := s.stack.get s.sp }
  | call (a : Addr) (h : s.sp ≠ 15) :
      Effect s (.callAddr a)
        { s with sp := s.sp + 1, stack := s.stack.set (s.sp + 1 : Fin 16) s.pc, pc := addrWord a }
  | jump {i : Instr} {w : Word} (h : JumpsTo s w i) : Effect s i (s.setPc w)
  | skip {i : Instr} (c : Bool) (h : Skips i) : Effect s i (s.skipIf c)
  | load {i : Instr} (x : Reg) (b : Byte) (h : LoadsReg x i) : Effect s i (s.setReg x b)
  | add (x y : Reg) (b : Byte) (c : Bool) : Effect s (.addVxVy x y) (s.resultThenFlag x b c)
  | flagFirst {i : Instr} (d : Reg) (b : Byte) (c : Bool) (h : WritesFlagFirst i) :
      Effect s i (s.flagThenResult d b c)
  | index {i : Instr} (w : Word) (h : WritesI i) : Effect s i (s.setI w)
  | store {i : Instr} {bs : List Byte} (h : Stores s bs i) (hr : s.i.toNat + bs.length ≤ 4096) :
      Effect s i { s with mem := s.mem.setAll s.cfg.font s.i.toNat bs }
  | loadRegs (x : Reg) {bs : List Byte} (hl : bs.length = x.val + 1) : Effect s (.ldVxMem x) (s.setRegs 0 bs)
  | setDt (x : Reg) : Effect s (.ldDtVx x) { s with dt := s.reg x }
  | setSt (x : Reg) : Effect s (.ldStVx x) { s with st := s.reg x }
  | takeKey (x : Reg) {k : Nat} (h : LowestHeld s k) :
      Effect s (.ldVxK x) { s.setReg x (BitVec.ofNat 8 k) with wait := { s.wait with active := false } }
  | waitForKey (x : Reg) (h : NoKeyHeld s) : Effect s (.ldVxK x) { s with wait := { active := true, reg := x } }

/-- A checked write that completes stays inside the memory. -/
theorem Effect.of_memWrite {i : Instr} {s t : State} {bs : List Byte} (hi : Stores s bs i) (hbs : bs.length ≠ 0)
    (h : s.memWrite s.i.toNat bs = .next t) : Effect s i t := by
  obtain ⟨hr, rfl⟩ := State.memWrite_eq_next h
  exact .store hi (hr.resolve_left hbs)

/-- Everything an instruction that completes can do. -/
theorem exec_effect {i : Instr} {s t : State} (h : exec i s = .next t) : Effect s i t := by
  cases i with
  | cls => cases h; exact .clear
  | ret => obtain ⟨hsp, rfl⟩ := exec_ret_eq_next h; exact .ret hsp
  | callAddr a => obtain ⟨hsp, rfl⟩ := exec_callAddr_eq_next h; exact .call a hsp
  | drwVxVyN x y n => obtain ⟨-, rfl⟩ := exec_drwVxVyN_eq_next h; exact .draw x y n _ _
  | ldVxMem x => obtain ⟨-, rfl⟩ := exec_ldVxMem_eq_next h; exact .loadRegs x (by simp)
  | ldBVx x => exact .of_memWrite ⟨x, .inl ⟨rfl, rfl⟩⟩ (by simp) h
  | ldMemVx x => exact .of_memWrite ⟨x, .inr ⟨rfl, rfl⟩⟩ (by simp [State.length_regsUpTo]) h
  | ldVxK x =>
    cases h
    rcases keyWaitStart_cases x s with ⟨k, hk, e⟩ | ⟨hk, e⟩ <;> rw [e]
    · exact .takeKey x hk
    · exact .waitForKey x hk
  | jpAddr | jpV0Addr => cases h; exact .jump (by simp [JumpsTo])
  | seVxKk | sneVxKk | seVxVy | sneVxVy | skpVx | sknpVx => cases h; exact .skip _ (by simp [Skips])
  | ldVxKk | addVxKk | rndVxKk | ldVxVy | orVxVy | andVxVy | xorVxVy | ldVxDt =>
    cases h; exact .load _ _ (by simp [LoadsReg])
  | addVxVy x y => cases h; exact .add x y _ _
  | subVxVy | shrVx | subnVxVy | shlVx => cases h; exact .flagFirst _ _ _ (by simp [WritesFlagFirst])
  | ldIAddr | addIVx | ldFVx => cases h; exact .index _ (by simp [WritesI])
  | ldDtVx x => cases h; exact .setDt x
  | ldStVx x => cases h; exact .setSt x

/-! ### What a write did change -/

/-- SP after a push that is not refused indexes no entry 0 (R24). -/
theorem sp_succ_ne_zero {p : Fin 16} (h : p ≠ 15) : p + 1 ≠ 0 := fun e => by
  have := sp_succ h
  simp [e] at this

theorem State.eq_of_reg_setReg_ne {s : State} {q x : Reg} {b : Byte} (h : (s.setReg x b).reg q ≠ s.reg q) :
    q = x := by
  by_contra hne
  exact h (by rw [State.reg_setReg, if_neg hne])

theorem State.le_of_reg_setRegs_ne {s : State} {q x : Reg} {bs : List Byte} (hl : bs.length = x.val + 1)
    (h : (s.setRegs 0 bs).reg q ≠ s.reg q) : q ≤ x := by
  by_contra hlt
  have := x.isLt
  rw [Fin.le_def] at hlt
  exact h (by rw [State.reg_setRegs _ _ _ _ (by omega), if_neg (by omega)])

/-! ### What each effect leaves alone -/

section
variable {i : Instr} {s t : State}

theorem Effect.sp_eq_or (h : Effect s i t) : t.sp = s.sp ∨ (∃ a, i = .callAddr a) ∨ i = .ret := by
  cases h with
  | call a => exact .inr (.inl ⟨a, rfl⟩)
  | ret => exact .inr (.inr rfl)
  | _ => exact .inl (by simp)

theorem Effect.stack_eq_or (h : Effect s i t) :
    t.stack = s.stack ∨
      (∃ a, i = .callAddr a) ∧ s.sp ≠ 15 ∧ t.sp = s.sp + 1 ∧ t.stack = s.stack.set t.sp s.pc := by
  cases h with
  | call a hsp => exact .inr ⟨⟨a, rfl⟩, hsp, rfl, rfl⟩
  | _ => exact .inl (by simp)

theorem Effect.i_eq_or (h : Effect s i t) : t.i = s.i ∨ WritesI i := by
  cases h with
  | index w hi => exact .inr hi
  | _ => exact .inl (by simp)

theorem Effect.dt_eq_or (h : Effect s i t) : t.dt = s.dt ∨ ∃ x, i = .ldDtVx x := by
  cases h with
  | setDt x => exact .inr ⟨x, rfl⟩
  | _ => exact .inl (by simp)

theorem Effect.st_eq_or (h : Effect s i t) : t.st = s.st ∨ ∃ x, i = .ldStVx x := by
  cases h with
  | setSt x => exact .inr ⟨x, rfl⟩
  | _ => exact .inl (by simp)

theorem Effect.wait_eq_or (h : Effect s i t) : t.wait = s.wait ∨ ∃ x, i = .ldVxK x := by
  cases h with
  | takeKey x | waitForKey x => exact .inr ⟨x, rfl⟩
  | _ => exact .inl (by simp)

theorem Effect.ticks_eq (h : Effect s i t) : t.ticks = s.ticks := by
  cases h <;> simp

theorem Effect.cfg_eq (h : Effect s i t) : t.cfg = s.cfg := by
  cases h <;> simp

theorem Effect.hasReset_eq (h : Effect s i t) : t.hasReset = s.hasReset := by
  cases h <;> simp

theorem Effect.inputs_eq (h : Effect s i t) : t.inputs = s.inputs := by
  cases h <;> simp

theorem Effect.draws_eq (h : Effect s i t) : t.draws = s.draws := by
  cases h <;> simp

/-- An instruction that begins a key wait leaves PC. -/
theorem Effect.pc_eq_of_begins_wait (h : Effect s i t) (hs : s.wait.active = false) (ht : t.wait.active = true) :
    t.pc = s.pc := by
  cases h with
  | waitForKey => rfl
  | _ => simp [hs] at ht

end

/-! ### The parts of the invariant -/

theorem JumpsTo.toNat_le {s : State} {w : Word} {i : Instr} (h : JumpsTo s w i) : w.toNat ≤ 0x10FE := by
  obtain ⟨a, ⟨-, rfl⟩ | ⟨-, rfl⟩⟩ := h
  · rw [addrWord_toNat]; omega
  · rw [BitVec.toNat_add, addrWord_toNat, byteWord_toNat]; omega

theorem toNat_add_two {w : Word} (h : w.toNat ≤ 4096) : (w + 2).toNat = w.toNat + 2 := by
  bv_omega

/-- A return address: the address after a fetched call (R112). -/
def ReturnAddress (w : Word) : Prop := 2 ≤ w.toNat ∧ w.toNat ≤ 4096

/-- The stack clauses of the invariant: entry 0 is 0 and every live entry is a return address. -/
def StackInv (stack : Vector Word 16) (sp : Fin 16) : Prop :=
  stack.get 0 = 0 ∧ ∀ j : Fin 16, 1 ≤ j → j ≤ sp → ReturnAddress (stack.get j)

theorem StackInv.push {stack : Vector Word 16} {sp : Fin 16} {w : Word} (h : StackInv stack sp) (hsp : sp ≠ 15)
    (hw : ReturnAddress w) : StackInv (stack.set (sp + 1 : Fin 16) w) (sp + 1) := by
  obtain ⟨h0, hlive⟩ := h
  have hval := sp_succ hsp
  refine ⟨?_, fun j h1 hj => ?_⟩
  · rw [get_set_vector, if_neg (sp_succ_ne_zero hsp).symm, h0]
  · rw [get_set_vector]
    split
    · exact hw
    · refine hlive j h1 ?_
      simp only [Fin.le_def, Fin.ext_iff] at *
      omega

theorem StackInv.pop {stack : Vector Word 16} {sp : Fin 16} (h : StackInv stack sp) (hsp : sp ≠ 0) :
    StackInv stack (sp - 1) := by
  obtain ⟨h0, hlive⟩ := h
  have hval := sp_pred hsp
  refine ⟨h0, fun j h1 hj => hlive j h1 ?_⟩
  rw [Fin.le_def] at *
  omega

theorem StackInv.top {stack : Vector Word 16} {sp : Fin 16} (h : StackInv stack sp) (hsp : sp ≠ 0) :
    ReturnAddress (stack.get sp) := by
  obtain ⟨-, hlive⟩ := h
  exact hlive sp (by omega) (Fin.le_refl sp)

theorem Effect.mem_wf {i : Instr} {s t : State} (h : Effect s i t) (hw : s.mem.wf s.cfg.font = true) :
    t.mem.wf t.cfg.font = true := by
  cases h with
  | store _ hr => exact Memory.wf_setAll _ _ _ _ hw (.inr hr)
  | _ => simpa using hw

theorem Effect.pc_le {i : Instr} {s t : State} (h : Effect s i t) (hpc : ReturnAddress s.pc)
    (hs : StackInv s.stack s.sp) : t.pc.toNat ≤ 0x10FE := by
  obtain ⟨-, hpc⟩ := hpc
  cases h with
  | ret hsp =>
    obtain ⟨-, htop⟩ := hs.top hsp
    exact htop.trans (by decide)
  | call a => exact (addrWord_toNat a).trans_le (by omega)
  | jump hj => exact hj.toNat_le
  | skip c =>
    rw [State.skipIf_pc]
    split
    · rw [toNat_add_two hpc]; omega
    · omega
  | _ =>
    have : s.pc.toNat ≤ 0x10FE := hpc.trans (by decide)
    simpa using this

theorem Effect.stackInv {i : Instr} {s t : State} (h : Effect s i t) (hs : StackInv s.stack s.sp)
    (hpc : ReturnAddress s.pc) : StackInv t.stack t.sp := by
  cases h with
  | ret hsp => exact hs.pop hsp
  | call a hsp => exact hs.push hsp hpc
  | _ => simpa using hs

/-! ### The invariant along a tick -/

theorem inv_iff (s : State) :
    Inv s ↔ s.mem.wf s.cfg.font = true ∧ s.pc.toNat ≤ 0x10FE ∧ StackInv s.stack s.sp ∧
      (s.wait.active = true → ReturnAddress s.pc) := by
  simp only [Inv, StackInv, ReturnAddress, and_assoc]

/-- An instruction keeps the invariant where it runs: PC past a fetch, no key wait pending (R94, R92). -/
theorem Effect.inv {i : Instr} {s t : State} (h : Effect s i t) (hs : Inv s) (hw : s.wait.active = false)
    (hpc : ReturnAddress s.pc) : Inv t := by
  obtain ⟨hmem, -, hstack, -⟩ := (inv_iff s).1 hs
  refine (inv_iff t).2 ⟨h.mem_wf hmem, h.pc_le hpc hstack, h.stackInv hstack hpc, fun ht => ?_⟩
  rw [h.pc_eq_of_begins_wait hw ht]
  exact hpc

/-- The word at PC, an instruction or not, keeps the invariant where it runs. -/
theorem executeWord_inv {w : Word} {s t : State} (h : executeWord w s = .next t) (hs : Inv s)
    (hw : s.wait.active = false) (hpc : ReturnAddress s.pc) : Inv t := by
  unfold executeWord at h
  split at h
  · exact (exec_effect h).inv hs hw hpc
  · cases h; exact hs

theorem keyWaitPoll_inv {s : State} (r : Reg) (hs : Inv s) : Inv (keyWaitPoll r s) := by
  rcases keyWaitPoll_cases r s with ⟨k, -, e⟩ | ⟨-, e⟩ <;> rw [e]
  · obtain ⟨hmem, hpc, hstack, -⟩ := (inv_iff s).1 hs
    exact (inv_iff _).2 ⟨hmem, hpc, hstack, fun ht => absurd ht Bool.false_ne_true⟩
  · exact hs

theorem endTick_inv {s : State} (hs : Inv s) : Inv s.endTick := by
  simpa [Inv] using hs

theorem finishTick_eq_next {r : Result} {t : State} (h : finishTick r = .next t) :
    ∃ u, r = .next u ∧ t = u.endTick := by
  cases r with
  | next u => cases h; exact ⟨u, rfl, rfl⟩
  | fault | refused => cases h

theorem Fetches.returnAddress_advancePc {s : State} (h : Fetches s) : ReturnAddress s.advancePc.pc := by
  obtain ⟨-, -, hpc⟩ := h
  rw [ReturnAddress, State.advancePc_pc, toNat_add_two (by omega)]
  omega

theorem Fetches.inv_advancePc {s : State} (h : Fetches s) (hs : Inv s) : Inv s.advancePc := by
  obtain ⟨hmem, -, hstack, -⟩ := (inv_iff s).1 hs
  have hpc := h.returnAddress_advancePc
  exact (inv_iff _).2 ⟨hmem, hpc.2.trans (by decide), hstack, fun _ => hpc⟩

/-- Settles O14: a tick polls, or executes the word at PC past its fetch, and then counts; each part keeps the
invariant. -/
theorem everyStepKeepsTheInvariant : Obligations.EveryStepKeepsTheInvariant := by
  intro s t hs h
  rcases step_cases s with ⟨-, e⟩ | ⟨-, -, e⟩ | ⟨-, -, -, e⟩ | ⟨hf, e⟩ <;> rw [e] at h
  · cases h
  · cases h
    exact endTick_inv (keyWaitPoll_inv _ hs)
  · cases h
  · obtain ⟨u, hu, rfl⟩ := finishTick_eq_next h
    have hinv := hf.inv_advancePc hs
    have hpc := hf.returnAddress_advancePc
    obtain ⟨-, hw, -⟩ := hf
    exact endTick_inv (executeWord_inv hu hinv hw hpc)

/-! ### The whole-machine rules -/

/-- Settles O17: of the effects only the one on I has another I. -/
theorem onlyThreeInstructionsChangeI : Obligations.OnlyThreeInstructionsChangeI := by
  intro i s t h hne
  exact (exec_effect h).i_eq_or.resolve_left hne

/-- Settles O20: a call alone writes the stack, at the risen SP, which is not 0; a return alone moves SP besides. -/
theorem onlyCallAndReturnMoveTheStack : Obligations.OnlyCallAndReturnMoveTheStack := by
  intro i s t h
  have he := exec_effect h
  refine ⟨fun j hne => ?_, he.sp_eq_or.resolve_left⟩
  rcases he.stack_eq_or with hst | ⟨hcall, hsp, htop, hst⟩
  · exact absurd (by rw [hst]) hne
  · have hj : j = t.sp := by
      by_contra hj
      exact hne (by rw [hst, get_set_vector, if_neg hj])
    refine ⟨hcall, hj, ?_⟩
    rw [hj, htop]
    exact sp_succ_ne_zero hsp

/-- Settles O21: apart from the flag producers, a write of one register that changes VF names it, and a block load
reaches VF only with `x = 0xF`. -/
theorem vfChangesOnlyAsAFlagOrANamedDestination : Obligations.VfChangesOnlyAsAFlagOrANamedDestination := by
  intro i s t h hne
  cases exec_effect h with
  | add x y => exact .inl ⟨x, y, .inl rfl⟩
  | flagFirst _ _ _ hi =>
    obtain ⟨x, y, hi⟩ := hi
    exact .inl ⟨x, y, .inr hi⟩
  | draw x y n => exact .inr (.inl ⟨x, y, n, rfl⟩)
  | load x _ hi =>
    obtain rfl := State.eq_of_reg_setReg_ne hne
    rcases hi with hi | hi | hi
    · exact .inr (.inr (.inl hi))
    · exact .inr (.inr (.inr (.inl hi)))
    · exact .inr (.inr (.inr (.inr (.inl hi))))
  | takeKey x =>
    obtain rfl : vf = x := State.eq_of_reg_setReg_ne hne
    simp
  | loadRegs x hl =>
    obtain rfl : vf = x := le_antisymm (State.le_of_reg_setRegs_ne hl hne) (Fin.le_last x)
    simp
  | _ => exact absurd (by simp [State.reg]) hne

/-- Settles O23: each part has its one effect, or none. -/
theorem timersWaitAndSetupHaveTheirOneWriter : Obligations.TimersWaitAndSetupHaveTheirOneWriter := by
  intro i s t h
  have he := exec_effect h
  exact ⟨he.dt_eq_or.resolve_left, he.st_eq_or.resolve_left, he.wait_eq_or.resolve_left,
    he.ticks_eq, he.cfg_eq, he.hasReset_eq, he.inputs_eq, he.draws_eq⟩

/-! ### What the environment supplies (R33) -/

/-- The state with other inputs to come. -/
def State.supply (s : State) (inputs : List TickInput) (draws : Nat) : State :=
  { s with inputs := inputs, draws := draws }

section
variable (s : State) (inputs : List TickInput) (draws : Nat)

theorem State.skipIf_supply (c : Bool) :
    (s.supply inputs draws).skipIf c = (s.skipIf c).supply inputs draws := by
  cases c <;> rfl

theorem State.setRegs_supply (j : Nat) (bs : List Byte) :
    (s.supply inputs draws).setRegs j bs = (s.setRegs j bs).supply inputs draws := by
  induction bs generalizing s j with
  | nil => rfl
  | cons b bs ih => exact ih (s.setReg (Fin.ofNat 16 j) b) (j + 1)

theorem State.memWrite_supply {t : State} {a : Nat} {bs : List Byte} (h : s.memWrite a bs = .next t) :
    (s.supply inputs draws).memWrite a bs = .next (t.supply inputs draws) := by
  obtain ⟨hr, rfl⟩ := State.memWrite_eq_next h
  exact State.memWrite_next hr

end

/-- Settles O24: every part of the state a meaning reads or writes is the same with other inputs. -/
theorem inputsReachOnlyFourInstructions : Obligations.InputsReachOnlyFourInstructions := by
  intro i s t inputs draws hrnd hkeys h
  cases i with
  | rndVxKk x kk => exact absurd rfl (hrnd x kk)
  | skpVx x | sknpVx x | ldVxK x => simpa using hkeys x
  | ret =>
    obtain ⟨hsp, rfl⟩ := exec_ret_eq_next h
    exact exec_ret_next (s := s.supply inputs draws) hsp
  | callAddr a =>
    obtain ⟨hsp, rfl⟩ := exec_callAddr_eq_next h
    exact exec_callAddr_next a (s := s.supply inputs draws) hsp
  | drwVxVyN x y n =>
    obtain ⟨hr, rfl⟩ := exec_drwVxVyN_eq_next h
    exact exec_drwVxVyN_next x y n (s := s.supply inputs draws) hr
  | ldVxMem x =>
    obtain ⟨hr, rfl⟩ := exec_ldVxMem_eq_next h
    exact (exec_ldVxMem_next x (s := s.supply inputs draws) hr).trans (congrArg _ (s.setRegs_supply ..))
  | ldBVx | ldMemVx => exact s.memWrite_supply inputs draws h
  | seVxKk | sneVxKk | seVxVy | sneVxVy => cases h; exact congrArg _ (s.skipIf_supply ..)
  | _ => cases h; rfl

/-! ### The canonical form of memory (assumption 26) -/

theorem Memory.wfFrom_cons {font : List Byte} {lo c : Nat} {b : Byte} {m : Memory}
    (h : Memory.wfFrom font lo ((c, b) :: m) = true) :
    lo ≤ c ∧ b ≠ unlisted font c ∧ Memory.wfFrom font (c + 1) m = true := by
  simp only [Memory.wfFrom, Bool.and_eq_true, decide_eq_true_eq] at h
  obtain ⟨⟨⟨hlo, -⟩, hb⟩, hm⟩ := h
  exact ⟨hlo, hb, hm⟩

/-- The lower bound of a canonical memory can be raised up to its first address. -/
theorem Memory.wfFrom_head {font : List Byte} {lo lo' c : Nat} {b : Byte} {m : Memory}
    (h : Memory.wfFrom font lo ((c, b) :: m) = true) (hlo : lo' ≤ c) :
    Memory.wfFrom font lo' ((c, b) :: m) = true := by
  simp only [Memory.wfFrom, Bool.and_eq_true, decide_eq_true_eq] at h ⊢
  obtain ⟨⟨⟨-, hc⟩, hb⟩, hm⟩ := h
  exact ⟨⟨⟨hlo, hc⟩, hb⟩, hm⟩

@[simp] theorem Memory.get_cons_self (font : List Byte) (c : Nat) (b : Byte) (m : Memory) :
    Memory.get font ((c, b) :: m) c = b := by
  simp [Memory.get]

theorem Memory.get_cons_ne (font : List Byte) {a c : Nat} (b : Byte) (m : Memory) (h : a ≠ c) :
    Memory.get font ((c, b) :: m) a = Memory.get font m a := by
  simp [Memory.get, h]

/-- Below the first address it can list, a canonical memory reads as if nothing were listed. -/
theorem Memory.get_eq_unlisted {font : List Byte} {m : Memory} {lo a : Nat}
    (h : Memory.wfFrom font lo m = true) (ha : a < lo) : Memory.get font m a = unlisted font a := by
  induction m generalizing lo with
  | nil => rfl
  | cons e m ih =>
    obtain ⟨c, b⟩ := e
    obtain ⟨hlo, -, hm⟩ := Memory.wfFrom_cons h
    rw [Memory.get_cons_ne font b m (by omega)]
    exact ih hm (by omega)

/-- If two canonical memories read the same, the second one does not begin above an address the first one lists. -/
theorem Memory.not_wfFrom_above {font : List Byte} {lo c : Nat} {b : Byte} {m m' : Memory}
    (h : Memory.wfFrom font lo ((c, b) :: m) = true)
    (hget : ∀ a, Memory.get font ((c, b) :: m) a = Memory.get font m' a) :
    ¬ Memory.wfFrom font (c + 1) m' = true := by
  intro h'
  obtain ⟨-, hb, -⟩ := Memory.wfFrom_cons h
  have := hget c
  rw [Memory.get_cons_self, Memory.get_eq_unlisted h' (Nat.lt_succ_self c)] at this
  exact hb this

/-- Canonical memories that read the same begin with the same byte at the same address, and so do their rests. -/
theorem Memory.eq_of_get_eq {font : List Byte} {m m' : Memory} {lo lo' : Nat}
    (h : Memory.wfFrom font lo m = true) (h' : Memory.wfFrom font lo' m' = true)
    (hget : ∀ a, Memory.get font m a = Memory.get font m' a) : m = m' := by
  induction m generalizing m' lo lo' with
  | nil =>
    cases m' with
    | nil => rfl
    | cons e m' => exact (Memory.not_wfFrom_above h' (fun a => (hget a).symm) rfl).elim
  | cons e m ih =>
    obtain ⟨c, b⟩ := e
    cases m' with
    | nil => exact (Memory.not_wfFrom_above h hget rfl).elim
    | cons e' m' =>
      obtain ⟨c', b'⟩ := e'
      have hge : ¬ c < c' := fun hlt => Memory.not_wfFrom_above h hget (Memory.wfFrom_head h' hlt)
      have hle : ¬ c' < c := fun hlt =>
        Memory.not_wfFrom_above h' (fun a => (hget a).symm) (Memory.wfFrom_head h hlt)
      obtain rfl : c = c' := by omega
      obtain rfl : b = b' := by simpa using hget c
      obtain ⟨-, -, hm⟩ := Memory.wfFrom_cons h
      obtain ⟨-, -, hm'⟩ := Memory.wfFrom_cons h'
      refine congrArg _ (ih hm hm' fun a => ?_)
      by_cases ha : a = c
      · rw [ha, Memory.get_eq_unlisted hm (Nat.lt_succ_self c), Memory.get_eq_unlisted hm' (Nat.lt_succ_self c)]
      · rw [← Memory.get_cons_ne font b m ha, ← Memory.get_cons_ne font b m' ha]
        exact hget a

/-- Settles O48, by induction on both lists at any lower bound. -/
theorem canonicalMemoriesThatReadTheSameAreEqual : Obligations.CanonicalMemoriesThatReadTheSameAreEqual :=
  fun _ _ _ h h' hget => Memory.eq_of_get_eq h h' hget

/-! ### Reset/load (R240) -/

theorem resetLoad_of_fits {cfg : Config} {image : List Byte} (prior : State)
    (h : cfg.startOffset.addr.toNat + image.length ≤ 4096) :
    resetLoad cfg image prior = (loadedState cfg image prior, .ok) :=
  if_pos (decide_eq_true h)

/-- Memory after a load: the image from the start offset, everywhere else the font and zeros. -/
theorem readByte_loadedState (cfg : Config) (image : List Byte) (prior : State) (a : Nat) :
    (loadedState cfg image prior).readByte a =
      if cfg.startOffset.addr.toNat ≤ a ∧ a < cfg.startOffset.addr.toNat + image.length then
        image.getD (a - cfg.startOffset.addr.toNat) 0
      else cfg.font.getD a 0 :=
  Memory.get_setAll ..

/-- The font ends at or below the start offset (D17). -/
theorem font_length_le_startOffset (cfg : Config) : cfg.font.length ≤ cfg.startOffset.addr.toNat := by
  have h : 0x200 ≤ cfg.startOffset.addr.toNat := by cases cfg.startOffset <;> decide
  exact cfg.font_length.trans h

/-- Settles O56: every field but memory is the blank state's; memory is the image over font and zeros. -/
theorem loadLeavesTheResetValues : Obligations.LoadLeavesTheResetValues := by
  intro cfg image prior hfits
  have hfont := font_length_le_startOffset cfg
  refine ⟨_, resetLoad_of_fits prior hfits, fun r => ?_, rfl, rfl, rfl, fun j => ?_, rfl, rfl, rfl, Frame.pixel_clear,
    rfl, rfl, rfl, rfl, fun a ha => ?_, fun j hj => ?_, fun a hlo hhi => ?_, fun a ha => ?_⟩
  · simp [State.reg, loadedState, State.blank, Vector.get]
  · simp [loadedState, State.blank, Vector.get]
  · rw [readByte_loadedState, if_neg (by omega)]
  · rw [readByte_loadedState, if_pos (by omega), Nat.add_sub_cancel_left]
  · rw [readByte_loadedState, if_neg (by omega), List.getD_eq_default _ _ hlo]
  · rw [readByte_loadedState, if_neg (by omega), List.getD_eq_default _ _ (by omega)]

end Sys2Proof.Machine

/-! SUPPORT. What the two block instructions do to memory and registers, byte by byte; then the statements about memory
(20_memory.md), from these. -/
namespace Sys2Proof.Machine
open Sys2Proof

/-! ### The block instructions, byte by byte (R154, R155) -/

section
variable {x j : Reg} {s t : State}

/-- A block store that completes was in range. -/
theorem exec_ldMemVx_inRange (h : exec (.ldMemVx x) s = .next t) : s.i.toNat + x.val ≤ 4095 := by
  obtain ⟨hr, -⟩ := State.memWrite_eq_next h
  rw [State.length_regsUpTo] at hr
  omega

/-- A block store leaves each register's byte at its own address. -/
theorem readByte_exec_ldMemVx (h : exec (.ldMemVx x) s = .next t) (hj : j ≤ x) :
    t.readByte (s.i.toNat + j.val) = s.reg j := by
  have hlen : j.val < (s.regsUpTo x).length := by rw [State.length_regsUpTo]; exact Nat.lt_succ_of_le hj
  rw [State.readByte_memWrite h, if_pos (by omega), Nat.add_sub_cancel_left, List.getD_eq_getElem _ _ hlen,
    State.getElem_regsUpTo]

/-- A block load leaves in each register the byte at its own address. -/
theorem reg_exec_ldVxMem (h : exec (.ldVxMem x) s = .next t) (hj : j ≤ x) :
    t.reg j = s.readByte (s.i.toNat + j.val) := by
  obtain ⟨-, rfl⟩ := exec_ldVxMem_eq_next h
  rw [Fin.le_def] at hj
  rw [State.reg_setRegs _ _ _ _ (by simp), if_pos (by simpa [Nat.lt_succ_iff] using hj)]
  simp [List.getD_eq_getElem?_getD, Nat.lt_succ_of_le hj]

end

/-! ### The statements about memory -/

/-- A byte that reads differently afterwards is one of those a store wrote, from I on. -/
theorem Effect.stores_of_readByte_ne {i : Instr} {s t : State} {a : Nat} (h : Effect s i t)
    (hne : t.readByte a ≠ s.readByte a) :
    ∃ bs, Stores s bs i ∧ s.i.toNat ≤ a ∧ a < s.i.toNat + bs.length := by
  cases h with
  | store hi =>
    refine ⟨_, hi, ?_⟩
    by_contra ha
    exact hne ((Memory.get_setAll ..).trans (if_neg ha))
  | _ => exact absurd (State.readByte_congr (by simp) (by simp) a) hne

/-- Settles O18: `Fx33` stores three bytes from I, `Fx55` stores `x + 1`, and no other effect is on memory. -/
theorem onlyTheTwoStoresChangeMemory : Obligations.OnlyTheTwoStoresChangeMemory := by
  intro i s t a h hne
  obtain ⟨bs, ⟨x, hi⟩, hlo, hhi⟩ := (exec_effect h).stores_of_readByte_ne hne
  rcases hi with ⟨rfl, rfl⟩ | ⟨rfl, rfl⟩
  · rw [length_decimalDigits] at hhi
    exact .inl ⟨x, rfl, hlo, by omega⟩
  · rw [State.length_regsUpTo] at hhi
    exact .inr ⟨x, rfl, hlo, by omega⟩

/-- Settles O46: the load is in range where the store was, and reads each register's byte where the store left it. -/
theorem storedRegistersComeBack : Obligations.StoredRegistersComeBack := by
  intro x s t u h hi hmem
  have hw := exec_ldVxMem_next x (s := u) (hi ▸ exec_ldMemVx_inRange h)
  refine ⟨_, hw, fun j hj => ?_⟩
  rw [reg_exec_ldVxMem hw hj, hi, hmem, readByte_exec_ldMemVx h hj]

/-- Settles O47: the fetch is in range since both its bytes were stored in range, and it reads memory as it is. -/
theorem aStoreIsSeenByTheNextFetch : Obligations.AStoreIsSeenByTheNextFetch := by
  intro x j k s t h hk hkx hpc
  have hr := exec_ldMemVx_inRange h
  have hjx : j ≤ x := by rw [Fin.le_def] at hkx ⊢; omega
  have hnext : t.pc.toNat + 1 = s.i.toNat + k.val := by omega
  rcases t.fetchWord_cases with ⟨-, hf⟩ | ⟨hgt, -⟩
  · rw [hf, wordAtPc, hnext, hpc, readByte_exec_ldMemVx h hjx, readByte_exec_ldMemVx h hkx]
  · rw [Fin.le_def] at hkx
    omega

end Sys2Proof.Machine

/-! SUPPORT. The decoder and the encoder undo each other, and a word decodes exactly if it matches a row; then the
statements about encoding (30_encoding.md), from these. -/
namespace Sys2Proof

/-! ### Decoding what was encoded (R70, R71, R75) -/

/-- The selectors that the encoder lays out lead the decoder to the instruction's row, and the other fields are the
operands. -/
theorem decodeWord_encode (i : Instr) : decodeWord (encode i) = some i := by
  cases i with
  | cls | ret => rfl
  | jpAddr | callAddr | ldIAddr | jpV0Addr => simp [encode, decodeWord]
  | seVxKk | sneVxKk | ldVxKk | addVxKk | rndVxKk => simp [encode, decodeWord]
  | seVxVy | sneVxVy | drwVxVyN => simp [encode, decodeWord]
  | ldVxVy | orVxVy | andVxVy | xorVxVy | addVxVy | subVxVy | shrVx | subnVxVy | shlVx =>
    simp [encode, decodeWord, decode8]
  | skpVx | sknpVx => simp [encode, decodeWord, decodeE]
  | ldVxDt | ldVxK | ldDtVx | ldStVx | addIVx | ldFVx | ldBVx | ldMemVx | ldVxMem =>
    simp [encode, decodeWord, decodeF]

/-- The decoder of a byte stream reads the word of its first two bytes and leaves the bytes after them (R52, R70). -/
theorem decodeBytes_wordBytes_append {w : Word} {i : Instr} (h : decodeWord w = some i) (rest : List Byte) :
    decodeBytes (wordBytes w ++ rest) = .ok (i, rest) := by
  simp [wordBytes, decodeBytes, h]

/-- Settles O1: the two bytes are the encoded word's, which decodes to the instruction. -/
theorem decodingAnEncodedInstructionGivesItBack : Obligations.DecodingAnEncodedInstructionGivesItBack :=
  fun i => decodeBytes_wordBytes_append (decodeWord_encode i)

/-! ### A word from its fields (R71) -/

theorem n1_append_n2 (w : Word) : (n1 w ++ n2 w : Byte) = w.extractLsb' 8 8 :=
  BitVec.extractLsb'_append_extractLsb'_eq_extractLsb' rfl

theorem n3_append_n4 (w : Word) : (n3 w ++ n4 w : Byte) = fieldKk w :=
  BitVec.extractLsb'_append_extractLsb'_eq_extractLsb' rfl

section
variable {w : Word} {i : Instr} {f : BitVec 4}

theorem fmtNNN_fields (h : n1 w = f) : fmtNNN f (fieldAddr w) = w := by
  subst h
  exact BitVec.extractLsb'_append_extractLsb' (w := 4) (len := 12)

theorem fmtXKK_fields {kk : Byte} (h : n1 w = f) (hkk : fieldKk w = kk) : fmtXKK f (fieldX w) kk = w := by
  subst h hkk
  change (n1 w ++ n2 w) ++ fieldKk w = w
  rw [n1_append_n2]
  exact append_wordBytes w

theorem fmtXYS_fields {k : BitVec 4} (h : n1 w = f) (hk : n4 w = k) : fmtXYS f (fieldX w) (fieldY w) k = w := by
  subst h hk
  calc (n1 w ++ n2 w ++ n3 w ++ n4 w : Word)
    _ = (n1 w ++ n2 w) ++ (n3 w ++ n4 w) := BitVec.append_assoc
    _ = w.extractLsb' 8 8 ++ fieldKk w := by rw [n1_append_n2, n3_append_n4]
    _ = w := append_wordBytes w

/-! ### Encoding what was decoded (R74, R77) -/

/-- An instruction that the decoder answers for the word, if it answers one, encodes to the word. -/
def DecodeSound (w : Word) (answer : Option Instr) : Prop := ∀ i, answer = some i → encode i = w

theorem DecodeSound.none : DecodeSound w none := nofun

theorem DecodeSound.some (h : encode i = w) : DecodeSound w (some i) := fun _ hj => Option.some.inj hj ▸ h

/-- The decoder is a tree of tests; a sound answer in each branch makes it sound. -/
theorem DecodeSound.ite {c : Prop} [Decidable c] {a b : Option Instr} (ha : c → DecodeSound w a)
    (hb : ¬c → DecodeSound w b) : DecodeSound w (if c then a else b) := by
  split
  · exact ha ‹_›
  · exact hb ‹_›

theorem decodeSound_decode0 (w : Word) : DecodeSound w (decode0 w) :=
  .ite (fun h => .some h.symm) fun _ => .ite (fun h => .some h.symm) fun _ => .none

theorem decodeSound_decode8 (h1 : n1 w = 0x8) : DecodeSound w (decode8 w) := by
  intro i h
  unfold decode8 at h
  split_ifs at h <;> cases h <;> exact fmtXYS_fields h1 ‹_›

theorem decodeSound_decodeE (h1 : n1 w = 0xE) : DecodeSound w (decodeE w) :=
  .ite (fun h => .some (fmtXKK_fields h1 h)) fun _ => .ite (fun h => .some (fmtXKK_fields h1 h)) fun _ => .none

theorem decodeSound_decodeF (h1 : n1 w = 0xF) : DecodeSound w (decodeF w) := by
  intro i h
  unfold decodeF at h
  split_ifs at h <;> cases h <;> exact fmtXKK_fields h1 ‹_›

/-- One line per family, in the order of `decodeWord`: each answer is built from the word's own fields. -/
theorem decodeSound_decodeWord (w : Word) : DecodeSound w (decodeWord w) :=
  .ite (fun _ => decodeSound_decode0 w) fun _ =>
  .ite (fun h => .some (fmtNNN_fields h)) fun _ =>
  .ite (fun h => .some (fmtNNN_fields h)) fun _ =>
  .ite (fun h => .some (fmtXKK_fields h rfl)) fun _ =>
  .ite (fun h => .some (fmtXKK_fields h rfl)) fun _ =>
  .ite (fun h => .ite (fun h4 => .some (fmtXYS_fields h h4)) fun _ => .none) fun _ =>
  .ite (fun h => .some (fmtXKK_fields h rfl)) fun _ =>
  .ite (fun h => .some (fmtXKK_fields h rfl)) fun _ =>
  .ite (fun h => decodeSound_decode8 h) fun _ =>
  .ite (fun h => .ite (fun h4 => .some (fmtXYS_fields h h4)) fun _ => .none) fun _ =>
  .ite (fun h => .some (fmtNNN_fields h)) fun _ =>
  .ite (fun h => .some (fmtNNN_fields h)) fun _ =>
  .ite (fun h => .some (fmtXKK_fields h rfl)) fun _ =>
  .ite (fun h => .some (fmtXYS_fields h rfl)) fun _ =>
  .ite (fun h => decodeSound_decodeE h) fun _ => decodeSound_decodeF (by bv_omega)

end

/-- Settles O2: every branch of the decoder answers with the fields of the word. -/
theorem encodingADecodedWordGivesItBack : Obligations.EncodingADecodedWordGivesItBack := decodeSound_decodeWord

/-! ### The rows of the opcode map (R74, R75) -/

open Laws.EncodesInRow in
theorem row_covers_encode (i : Instr) : i.row.covers (encode i) :=
  match i with
  | .cls => cls
  | .ret => ret
  | .jpAddr a => jpAddr a
  | .callAddr a => callAddr a
  | .seVxKk x kk => seVxKk x kk
  | .sneVxKk x kk => sneVxKk x kk
  | .seVxVy x y => seVxVy x y
  | .ldVxKk x kk => ldVxKk x kk
  | .addVxKk x kk => addVxKk x kk
  | .ldVxVy x y => ldVxVy x y
  | .orVxVy x y => orVxVy x y
  | .andVxVy x y => andVxVy x y
  | .xorVxVy x y => xorVxVy x y
  | .addVxVy x y => addVxVy x y
  | .subVxVy x y => subVxVy x y
  | .shrVx x y => shrVx x y
  | .subnVxVy x y => subnVxVy x y
  | .shlVx x y => shlVx x y
  | .sneVxVy x y => sneVxVy x y
  | .ldIAddr a => ldIAddr a
  | .jpV0Addr a => jpV0Addr a
  | .rndVxKk x kk => rndVxKk x kk
  | .drwVxVyN x y n => drwVxVyN x y n
  | .skpVx x => skpVx x
  | .sknpVx x => sknpVx x
  | .ldVxDt x => ldVxDt x
  | .ldVxK x => ldVxK x
  | .ldDtVx x => ldDtVx x
  | .ldStVx x => ldStVx x
  | .addIVx x => addIVx x
  | .ldFVx x => ldFVx x
  | .ldBVx x => ldBVx x
  | .ldMemVx x => ldMemVx x
  | .ldVxMem x => ldVxMem x

/-- Words that agree under a mask agree in every field that the mask keeps. -/
theorem extractLsb'_eq_of_and_eq {v w m : Word} {start len : Nat} (h : v &&& m = w &&& m)
    (hm : m.extractLsb' start len = BitVec.allOnes len) : v.extractLsb' start len = w.extractLsb' start len := by
  have h := congrArg (BitVec.extractLsb' start len) h
  rwa [BitVec.extractLsb'_and, BitVec.extractLsb'_and, hm, BitVec.and_allOnes, BitVec.and_allOnes] at h

section
variable {w : Word} {i : Instr}

theorem Row.covers.and_mask_eq (h : i.row.covers w) : w &&& i.row.mask = encode i &&& i.row.mask :=
  h.trans (row_covers_encode i).symm

theorem n1_row_mask (i : Instr) : n1 i.row.mask = 0xF := by
  cases i <;> simp [Instr.row, n1]

theorem Row.covers.n1_eq (h : i.row.covers w) : n1 w = n1 (encode i) :=
  extractLsb'_eq_of_and_eq h.and_mask_eq (n1_row_mask i)

theorem Row.covers.n4_eq (h : i.row.covers w) (hm : i.row.mask = 0xF00F) : n4 w = n4 (encode i) :=
  extractLsb'_eq_of_and_eq h.and_mask_eq (hm ▸ by decide)

theorem Row.covers.fieldKk_eq (h : i.row.covers w) (hm : i.row.mask = 0xF0FF) : fieldKk w = fieldKk (encode i) :=
  extractLsb'_eq_of_and_eq h.and_mask_eq (hm ▸ by decide)

theorem Row.covers.eq_encode (h : i.row.covers w) (hm : i.row.mask = 0xFFFF) : w = encode i := by
  simpa [hm] using extractLsb'_eq_of_and_eq (start := 0) (len := 16) h.and_mask_eq (hm ▸ by decide)

/-- A word of the row has the row's selectors, and these alone choose the branch of the decoder. -/
theorem decodeWord_of_covers (h : i.row.covers w) : ∃ j, decodeWord w = some j ∧ j.row = i.row := by
  cases i with
  | cls | ret => exact ⟨_, h.eq_encode rfl ▸ decodeWord_encode _, rfl⟩
  | jpAddr | callAddr | ldIAddr | jpV0Addr | seVxKk | sneVxKk | ldVxKk | addVxKk | rndVxKk | drwVxVyN =>
    simp [decodeWord, h.n1_eq, encode, Instr.row]
  | seVxVy | sneVxVy => simp [decodeWord, h.n1_eq, h.n4_eq rfl, encode, Instr.row]
  | ldVxVy | orVxVy | andVxVy | xorVxVy | addVxVy | subVxVy | shrVx | subnVxVy | shlVx =>
    simp [decodeWord, decode8, h.n1_eq, h.n4_eq rfl, encode, Instr.row]
  | skpVx | sknpVx => simp [decodeWord, decodeE, h.n1_eq, h.fieldKk_eq rfl, encode, Instr.row]
  | ldVxDt | ldVxK | ldDtVx | ldStVx | addIVx | ldFVx | ldBVx | ldMemVx | ldVxMem =>
    simp [decodeWord, decodeF, h.n1_eq, h.fieldKk_eq rfl, encode, Instr.row]

end

/-- Settles O3: a word that decodes is the encoding of an instruction, which lies in its row; a word of a row has the
selectors that lead the decoder to it. -/
theorem decodingFollowsTheOpcodeMap : Obligations.DecodingFollowsTheOpcodeMap := by
  refine fun w => ⟨fun i h => ?_, fun i => decodeWord_of_covers⟩
  obtain rfl := decodeSound_decodeWord w i h
  exact row_covers_encode i

/-- Settles O4: eight of the words are encodings; the other two are evaluated. -/
theorem sampleWordsDecodeAsTheSpecSays : Obligations.SampleWordsDecodeAsTheSpecSays :=
  ⟨decodeWord_encode .cls, decodeWord_encode .ret, decodeWord_encode (.jpAddr 0xABC),
    decodeWord_encode (.seVxKk 10 0x05), decodeWord_encode (.subnVxVy 1 2), decodeWord_encode (.drwVxVyN 0 1 15),
    decodeWord_encode (.sknpVx 1), decodeWord_encode (.ldVxMem 3), by decide, by decide⟩

end Sys2Proof

/-! SUPPORT. What is never refused: every instruction, every word and, after a reset, every tick; then the statement about
it (R76, R91). -/
namespace Sys2Proof.Machine
open Sys2Proof

theorem State.memWrite_ne_refused (s : State) (a : Nat) (bs : List Byte) (r : Refusal) :
    s.memWrite a bs ≠ .refused r := by
  rcases s.memWrite_cases a bs with ⟨-, e⟩ | ⟨-, e⟩ <;> rw [e] <;> exact nofun

/-- An instruction completes or raises an error. -/
theorem exec_ne_refused (i : Instr) (s : State) (r : Refusal) : exec i s ≠ .refused r := by
  cases i with
  | ret => by_cases hsp : s.sp = 0 <;> simp [exec_ret_fault, exec_ret_next, hsp]
  | callAddr a => by_cases hsp : s.sp = 15 <;> simp [exec_callAddr_fault, exec_callAddr_next, hsp]
  | drwVxVyN x y n =>
    rcases s.memRead_cases s.i.toNat n.val with ⟨-, e⟩ | ⟨-, e⟩ <;> simp [exec, execDrwVxVyN, e, raise]
  | ldVxMem x =>
    rcases s.memRead_cases s.i.toNat (x.val + 1) with ⟨-, e⟩ | ⟨-, e⟩ <;> simp [exec, execLdVxMem, e, raise]
  | ldBVx | ldMemVx => exact s.memWrite_ne_refused _ _ r
  | _ => exact nofun

/-- A word that is no instruction executes as the no-op (R76). -/
theorem executeWord_ne_refused (w : Word) (s : State) (r : Refusal) : executeWord w s ≠ .refused r := by
  unfold executeWord
  split
  · exact exec_ne_refused _ s r
  · exact nofun

theorem finishTick_eq_refused {x : Result} {r : Refusal} (h : finishTick x = .refused r) : x = .refused r := by
  cases x with
  | next | fault => cases h
  | refused => exact h

theorem step_eq_refused {s : State} (h : s.hasReset = false) : step s = .refused .notReset :=
  if_neg (by simp [h])

theorem tick_eq_none {s : State} {r : Refusal} (h : step s = .refused r) : tick s = none := by
  rw [tick, h]

/-- Settles O10: after a reset a step polls, faults at the fetch or executes a word, and no word is refused. -/
theorem onlyAMachineNeverResetIsRefused : Obligations.OnlyAMachineNeverResetIsRefused := by
  refine fun s => ⟨fun hs r h => ?_, fun hs => ⟨step_eq_refused hs, tick_eq_none (step_eq_refused hs)⟩⟩
  rcases step_cases s with ⟨hn, -⟩ | ⟨-, -, e⟩ | ⟨-, -, -, e⟩ | ⟨-, e⟩
  · simp [hs] at hn
  · simp [e] at h
  · simp [e] at h
  · exact executeWord_ne_refused _ _ r (finishTick_eq_refused (e ▸ h))

end Sys2Proof.Machine

/-! SUPPORT. The frames of a tick's parts and their composition, what a fetching and a waiting tick answer, and which
states make an instruction raise an error; then the statements about the tick (40_tick_cycle.md), from these. -/
namespace Sys2Proof.Machine
open Sys2Proof

/-! ### Frames one after the other -/

theorem Same.trans {s t u : State} {p : StatePart} (h : Same s t p) (h' : Same t u p) : Same s u p := by
  cases p with
  | stack | memory => exact fun j => (h' j).trans (h j)
  | screen => exact fun r c => (h' r c).trans (h r c)
  | setup | inputs => exact ⟨h'.1.trans h.1, h'.2.trans h.2⟩
  | _ => exact Eq.trans h' h

theorem SameBut.trans {s t u : State} {ps qs : List StatePart} (h : SameBut ps s t) (h' : SameBut qs t u) :
    SameBut (ps ++ qs) s u := by
  intro p hp
  rw [List.mem_append, not_or] at hp
  obtain ⟨hps, hqs⟩ := hp
  exact (h p hps).trans (h' p hqs)

theorem sameBut_advancePc (s : State) : SameBut [.pc] s s.advancePc := by
  intro p hp
  cases p with
  | pc => simp at hp
  | _ => simp [Same]

theorem sameRegsBut_endTick (s : State) : SameRegsBut [] s s.endTick := fun r _ => s.reg_endTick r

theorem sameBut_endTick (s : State) : SameBut [.ticks, .dt, .st, .inputs] s s.endTick := by
  intro p hp
  cases p with
  | ticks | dt | st | inputs => simp at hp
  | _ => simp [Same]

/-! ### The count at the end of a tick (R97, R98) -/

theorem State.counted_of_not_waiting {s : State} (h : s.wait.active = false) : s.counted = true := by
  simp [State.counted, h]

theorem State.counted_of_waiting {s : State} (h : s.wait.active = true) : s.counted = s.cfg.keywaitTimersRun := by
  simp [State.counted, h]

/-- Settles O9: the end of a counted tick counts once, and R28's width gives the modulus. -/
theorem timersFallWhenTicksReachesAMultipleOfCadence :
    Obligations.TimersFallWhenTicksReachesAMultipleOfCadence := by
  intro s hc
  obtain ⟨hticks, hdue, hnot⟩ := State.endTick_countedOnce hc
  exact ⟨by rw [hticks]; exact BitVec.toNat_add _ _, hdue, hnot, sameRegsBut_endTick s, sameBut_endTick s⟩

/-! ### What a tick reports (R99, R100) -/

theorem tick_completed {s t : State} (h : step s = .next t) (hw : t.wait.active = false) :
    tick s = some (t, .completed) := by
  rw [tick, h]
  simp [hw]

theorem tick_stillWaiting {s t : State} (h : step s = .next t) (hw : t.wait.active = true) :
    tick s = some (t, .stillWaiting) := by
  rw [tick, h]
  simp [hw]

theorem tick_error {s : State} {f : Fault} (h : step s = .fault f) : tick s = some (s, .error f) := by
  rw [tick, h]

/-! ### A tick that fetches (R93 to R96) -/

theorem executeWord_of_some {w : Word} {s : State} {i : Instr} (h : decodeFor s.cfg w = some i) :
    executeWord w s = exec i s := by
  rw [executeWord, h]

theorem executeWord_of_none {w : Word} {s : State} (h : decodeFor s.cfg w = none) : executeWord w s = .next s := by
  rw [executeWord, h]
  rfl

theorem finishTick_eq_fault {x : Result} {f : Fault} : finishTick x = .fault f ↔ x = .fault f := by
  cases x <;> simp [finishTick]

section
variable {s : State}

theorem step_fetch_fault (hr : s.hasReset = true) (hw : s.wait.active = false) (hp : 4094 < s.pc.toNat) :
    step s = .fault (.memoryOutOfRange s.pc.toNat) := by
  rcases step_cases s with ⟨hn, -⟩ | ⟨-, ha, -⟩ | ⟨-, -, -, e⟩ | ⟨⟨-, -, hle⟩, -⟩
  · simp [hr] at hn
  · simp [hw] at ha
  · exact e
  · omega

theorem step_instr {i : Instr} (hf : Fetches s) (hd : decodeFor s.cfg (wordAtPc s) = some i) :
    step s = finishTick (exec i s.advancePc) :=
  (step_fetches hf).trans (congrArg finishTick (executeWord_of_some (s := s.advancePc) hd))

theorem step_unknown (hf : Fetches s) (hd : decodeFor s.cfg (wordAtPc s) = none) :
    step s = .next s.advancePc.endTick :=
  (step_fetches hf).trans (congrArg finishTick (executeWord_of_none (s := s.advancePc) hd))

end

/-- Settles O5: the step is the end of the tick after the decoded instruction. -/
theorem stepRunsTheDecodedInstruction : Obligations.StepRunsTheDecodedInstruction := by
  intro s i hf hd
  exact ⟨fun t ht => (step_instr hf hd).trans (congrArg finishTick ht),
    fun f hx => (step_instr hf hd).trans (congrArg finishTick hx)⟩

/-- Settles O6: the tick is the PC advance and the end of a counted tick. -/
theorem anUnknownWordIsACountedNoOp : Obligations.AnUnknownWordIsACountedNoOp := by
  intro s hf hd
  have hstep := step_unknown hf hd
  obtain ⟨-, hw, -⟩ := hf
  have hcount : CountedOnce s s.advancePc.endTick :=
    State.endTick_countedOnce (s := s.advancePc) (State.counted_of_not_waiting hw)
  obtain ⟨hticks, hdue, hnot⟩ := hcount
  exact ⟨_, hstep, State.endTick_pc _, hticks, hdue, hnot, sameRegsBut_endTick s.advancePc,
    (sameBut_advancePc s).trans (sameBut_endTick _)⟩

/-- Settles O7: above 4094 the fetch is out of range. -/
theorem fetchAbove4094RaisesMemoryOutOfRange : Obligations.FetchAbove4094RaisesMemoryOutOfRange := by
  intro s hr hw hp
  have hstep := step_fetch_fault hr hw hp
  exact ⟨hstep, tick_error hstep⟩

/-- Settles O13: the jump writes back the PC that the fetch advanced, so the tick is its end alone. -/
theorem aJumpToItselfIsAFixedPoint : Obligations.AJumpToItselfIsAFixedPoint := by
  intro s a hf hd ha
  have hpc : addrWord a = s.pc := BitVec.eq_of_toNat_eq ((addrWord_toNat a).trans ha)
  have hexec : exec (.jpAddr a) s.advancePc = .next s :=
    congrArg (fun w => (.next (s.advancePc.setPc w) : Result)) hpc
  exact ⟨s.endTick, (step_instr hf hd).trans (congrArg finishTick hexec), sameRegsBut_endTick s, sameBut_endTick s⟩

/-- Settles O32: the fetch advances PC by 2, a taken skip by 2 more, and neither wraps at PC up to 4094. -/
theorem aSkipTickMovesPcByFourOrTwo : Obligations.ASkipTickMovesPcByFourOrTwo := by
  intro s x kk hf hd
  have hstep : step s = .next (s.advancePc.skipIf (s.reg x == kk)).endTick := step_instr hf hd
  obtain ⟨-, hw, hpc⟩ := hf
  have hcounted : (s.advancePc.skipIf (s.reg x == kk)).counted = true :=
    State.counted_of_not_waiting (by simpa using hw)
  obtain ⟨hticks, -⟩ := State.endTick_countedOnce hcounted
  have hskip : (s.advancePc.skipIf (s.reg x == kk)).endTick.pc =
      if s.reg x = kk then s.pc + 2 + 2 else s.pc + 2 := by simp
  have hadv : (s.pc + 2).toNat = s.pc.toNat + 2 := toNat_add_two (by omega)
  refine ⟨_, hstep, ?_, by simpa using hticks⟩
  rw [hskip]
  split
  · rw [toNat_add_two (by omega), hadv]
  · exact hadv

/-! ### What writes PC after the fetch (R94) -/

theorem Effect.pc_eq_or {i : Instr} {s t : State} (h : Effect s i t) :
    t.pc = s.pc ∨ i = .ret ∨ (∃ a, i = .jpAddr a ∨ i = .callAddr a ∨ i = .jpV0Addr a) ∨ Skips i := by
  cases h with
  | ret => exact .inr (.inl rfl)
  | call a => exact .inr (.inr (.inl ⟨a, .inr (.inl rfl)⟩))
  | jump hj =>
    obtain ⟨a, ⟨hi, -⟩ | ⟨hi, -⟩⟩ := hj
    · exact .inr (.inr (.inl ⟨a, .inl hi⟩))
    · exact .inr (.inr (.inl ⟨a, .inr (.inr hi)⟩))
  | skip _ hi => exact .inr (.inr (.inr hi))
  | _ => exact .inl (by simp)

/-- Settles O22: of the effects only a return, a call, a jump and a skip have another PC. -/
theorem onlyControlTransfersWritePc : Obligations.OnlyControlTransfersWritePc := by
  intro i s t h hne
  exact (exec_effect h).pc_eq_or.resolve_left hne

/-! ### A tick that waits for a key (R92, R194) -/

section
variable {s : State}

theorem step_waiting (hr : s.hasReset = true) (hw : s.wait.active = true) :
    step s = .next (keyWaitPoll s.wait.reg s).endTick := by
  rw [step, if_pos hr, if_pos hw]

theorem keyWaitPoll_of_noKeyHeld (r : Reg) (h : NoKeyHeld s) : keyWaitPoll r s = s := by
  rw [keyWaitPoll, s.lowestHeld_none.2 h]

theorem keyWaitPoll_of_lowestHeld (r : Reg) {k : Nat} (h : LowestHeld s k) :
    keyWaitPoll r s = { s.setReg r (BitVec.ofNat 8 k) with wait := { s.wait with active := false } } := by
  rw [keyWaitPoll, (s.lowestHeld_some k).2 h]

theorem reg_keyWaitPoll (r : Reg) {k : Nat} (h : LowestHeld s k) (q : Reg) :
    (keyWaitPoll r s).reg q = if q = r then BitVec.ofNat 8 k else s.reg q := by
  rw [keyWaitPoll_of_lowestHeld r h]
  exact s.reg_setReg r q _

theorem sameBut_keyWaitPoll (r : Reg) {k : Nat} (h : LowestHeld s k) : SameBut [.wait] s (keyWaitPoll r s) := by
  rw [keyWaitPoll_of_lowestHeld r h]
  intro p hp
  cases p with
  | wait => simp at hp
  | memory => exact fun _ => rfl
  | _ => simp [Same]

theorem wait_keyWaitPoll (r : Reg) {k : Nat} (h : LowestHeld s k) :
    (keyWaitPoll r s).wait = { s.wait with active := false } := by
  rw [keyWaitPoll_of_lowestHeld r h]

theorem countedOnce_keyWaitPoll_endTick (r : Reg) {k : Nat} (h : LowestHeld s k) :
    CountedOnce s (keyWaitPoll r s).endTick := by
  rw [keyWaitPoll_of_lowestHeld r h]
  exact State.endTick_countedOnce (State.counted_of_not_waiting rfl)

end

/-- Settles O8: the poll takes the lowest held key and ends the wait, so its tick is counted, or it changes nothing and
the wait's tick is counted as KEYWAIT_TIMERS_RUN says. -/
theorem aWaitingTickOnlyPollsTheKeys : Obligations.AWaitingTickOnlyPollsTheKeys := by
  intro s hr hw
  have hstep := step_waiting hr hw
  refine ⟨fun k hk => ?_, fun hk => ?_⟩
  · have hwait : (keyWaitPoll s.wait.reg s).endTick.wait = { s.wait with active := false } := by
      rw [State.endTick_wait, wait_keyWaitPoll _ hk]
    have hreg (q : Reg) := (State.reg_endTick _ q).trans (reg_keyWaitPoll s.wait.reg hk q)
    refine ⟨_, hstep, tick_completed hstep (by rw [hwait]), ?_, by rw [hwait], by rw [hwait],
      countedOnce_keyWaitPoll_endTick _ hk, fun q hq => ?_, (sameBut_keyWaitPoll _ hk).trans (sameBut_endTick _)⟩
    · obtain ⟨hlt, -⟩ := hk
      rw [hreg, if_pos rfl, BitVec.toNat_ofNat, Nat.mod_eq_of_lt (by omega)]
    · rw [hreg, if_neg (by simpa using hq)]
  · rw [keyWaitPoll_of_noKeyHeld _ hk] at hstep
    have hcounted := State.counted_of_waiting hw
    exact ⟨_, hstep, tick_stillWaiting hstep (by rw [State.endTick_wait, hw]),
      fun hrun => State.endTick_countedOnce (hcounted.trans hrun),
      fun hstop => State.endTick_not_counted (hcounted.trans hstop),
      sameRegsBut_endTick s, sameBut_endTick s⟩

/-! ### The errors of the instructions (R211 to R213) -/

/-- How many bytes from I an instruction reads or writes (R153 to R155, R173). -/
def accessLength : Instr → Nat
  | .drwVxVyN _ _ n => n.val
  | .ldBVx _ => 3
  | .ldMemVx x | .ldVxMem x => x.val + 1
  | _ => 0

/-- The error an instruction raises in the state `s`, by what of the state decides it: SP, or I. -/
inductive Raises (s : State) : Instr → Fault → Prop
  | overflow (a : Addr) (h : s.sp = 15) : Raises s (.callAddr a) (.stackOverflow 15)
  | underflow (h : s.sp = 0) : Raises s .ret (.stackUnderflow 0)
  | outOfRange {i : Instr} (h : inRange s.i.toNat (accessLength i) = false) :
      Raises s i (.memoryOutOfRange s.i.toNat)

section
variable {s : State}

theorem Raises.of_memWrite {i : Instr} {f : Fault} {bs : List Byte} (hl : bs.length = accessLength i)
    (h : s.memWrite s.i.toNat bs = .fault f) : Raises s i f := by
  rcases s.memWrite_cases s.i.toNat bs with ⟨-, e⟩ | ⟨hr, e⟩ <;> rw [e] at h <;> cases h
  exact .outOfRange (hl ▸ hr)

/-- Everything that can make an instruction raise an error. -/
theorem raises_of_exec {i : Instr} {f : Fault} (h : exec i s = .fault f) : Raises s i f := by
  cases i with
  | ret =>
    by_cases hsp : s.sp = 0
    · rw [exec_ret_fault hsp] at h; cases h; exact .underflow hsp
    · rw [exec_ret_next hsp] at h; cases h
  | callAddr a =>
    by_cases hsp : s.sp = 15
    · rw [exec_callAddr_fault a hsp] at h; cases h; exact .overflow a hsp
    · rw [exec_callAddr_next a hsp] at h; cases h
  | drwVxVyN x y n =>
    rcases s.memRead_cases s.i.toNat n.val with ⟨-, e⟩ | ⟨hr, e⟩ <;>
      simp only [exec, execDrwVxVyN, e] at h <;> cases h
    exact .outOfRange hr
  | ldVxMem x =>
    rcases s.memRead_cases s.i.toNat (x.val + 1) with ⟨-, e⟩ | ⟨hr, e⟩ <;>
      simp only [exec, execLdVxMem, e] at h <;> cases h
    exact .outOfRange hr
  | ldBVx x => exact .of_memWrite (length_decimalDigits _) h
  | ldMemVx x => exact .of_memWrite (s.length_regsUpTo x) h
  | _ => cases h

/-- An access out of range raises its error whatever the instruction does with the bytes. -/
theorem exec_outOfRange {i : Instr} (h : inRange s.i.toNat (accessLength i) = false) :
    exec i s = .fault (.memoryOutOfRange s.i.toNat) := by
  cases i with
  | drwVxVyN | ldVxMem =>
    simp only [accessLength] at h
    simp [exec, execDrwVxVyN, execLdVxMem, State.memRead, raise, h]
  | ldBVx | ldMemVx =>
    simp only [accessLength] at h
    simp [exec, execLdBVx, execLdMemVx, State.memWrite, State.length_regsUpTo, raise, h]
  | _ => exact absurd h (by simp [accessLength, inRange])

theorem exec_eq_fault {i : Instr} {f : Fault} : exec i s = .fault f ↔ Raises s i f := by
  refine ⟨raises_of_exec, fun h => ?_⟩
  cases h with
  | overflow a hsp => exact exec_callAddr_fault a hsp
  | underflow hsp => exact exec_ret_fault hsp
  | outOfRange hr => exact exec_outOfRange hr

/-! ### An error and other inputs (R99, R217) -/

variable (inputs : List TickInput) (draws : Nat)

theorem Raises.supply {i : Instr} {f : Fault} (h : Raises s i f) : Raises (s.supply inputs draws) i f := by
  cases h with
  | overflow a hsp => exact .overflow a hsp
  | underflow hsp => exact .underflow hsp
  | outOfRange hr => exact .outOfRange (s := s.supply inputs draws) hr

theorem executeWord_fault_supply {w : Word} {f : Fault} (h : executeWord w s = .fault f) :
    executeWord w (s.supply inputs draws) = .fault f := by
  cases hd : decodeFor s.cfg w with
  | none =>
    rw [executeWord_of_none hd] at h
    cases h
  | some i =>
    rw [executeWord_of_some hd] at h
    rw [executeWord_of_some (s := s.supply inputs draws) hd]
    exact exec_eq_fault.2 ((exec_eq_fault.1 h).supply inputs draws)

theorem step_fault_supply {f : Fault} (h : step s = .fault f) : step (s.supply inputs draws) = .fault f := by
  rcases step_cases s with ⟨-, e⟩ | ⟨-, -, e⟩ | ⟨hr, hw, hp, e⟩ | ⟨hf, e⟩ <;> rw [e] at h
  · cases h
  · cases h
  · exact (step_fetch_fault (s := s.supply inputs draws) hr hw hp).trans h
  · rw [step_fetches (s := s.supply inputs draws) hf, finishTick_eq_fault]
    exact executeWord_fault_supply (s := s.advancePc) inputs draws (finishTick_eq_fault.1 h)

end

/-- Settles O12: an error depends on PC, SP, I and the word at PC, which other inputs leave alone. -/
theorem anErrorRepeatsWhateverTheInputs : Obligations.AnErrorRepeatsWhateverTheInputs :=
  fun _ _ h => ⟨tick_error h, fun inputs draws => step_fault_supply inputs draws h⟩

end Sys2Proof.Machine

/-! SUPPORT. The frames of a written PC, of a skip, of a call and of a return; then the statements about control transfer
(41_control_flow.md), from these. -/
namespace Sys2Proof.Machine
open Sys2Proof

/-! ### A written PC (R111, R113) -/

theorem sameBut_setPc (s : State) (w : Word) : SameBut [.pc] s (s.setPc w) := by
  intro p hp
  cases p with
  | pc => simp at hp
  | _ => simp [Same]

theorem sameRegsBut_setPc (s : State) (w : Word) : SameRegsBut [] s (s.setPc w) := fun r _ => s.reg_setPc w r

/-- A 12-bit address and a byte add up in 16 bits. -/
theorem toNat_addrWord_add_byteWord (a : Addr) (b : Byte) :
    (addrWord a + byteWord b).toNat = a.toNat + b.toNat := by
  rw [BitVec.toNat_add, addrWord_toNat, byteWord_toNat]
  omega

/-- Settles O25: the word is the jump's encoding, and the address fits PC. -/
theorem jumpSetsPcToTheAddress : Obligations.JumpSetsPcToTheAddress :=
  fun a s => ⟨decodeWord_encode (.jpAddr a), s.setPc (addrWord a), rfl, addrWord_toNat a, sameRegsBut_setPc s _,
    sameBut_setPc s _⟩

/-- Settles O26: the word is the jump's encoding, and the sum fits PC. -/
theorem jumpWithOffsetAddsV0 : Obligations.JumpWithOffsetAddsV0 :=
  fun a s => ⟨decodeWord_encode (.jpV0Addr a), s.setPc (addrWord a + byteWord (s.reg 0)), rfl,
    toNat_addrWord_add_byteWord a (s.reg 0), sameRegsBut_setPc s _, sameBut_setPc s _⟩

/-! ### Call and return (R110, R112, D6) -/

/-- Settles O27: the push writes the entry at the risen SP, and that one alone. -/
theorem callPushesTheReturnAddress : Obligations.CallPushesTheReturnAddress := by
  refine fun a s => ⟨decodeWord_encode (.callAddr a), fun hsp => ?_, exec_callAddr_fault a⟩
  refine ⟨_, exec_callAddr_next a hsp, sp_succ hsp, ?_, fun j hj => ?_, addrWord_toNat a, fun _ _ => rfl,
    fun p hp => ?_⟩
  · rw [get_set_vector, if_pos rfl]
  · rw [get_set_vector, if_neg hj]
  · cases p with
    | pc | sp | stack => simp at hp
    | memory => exact fun _ => rfl
    | _ => simp [Same]

/-- Settles O28: the pop reads the entry at SP and lowers SP. -/
theorem returnPopsTheReturnAddress : Obligations.ReturnPopsTheReturnAddress := by
  refine fun s => ⟨decodeWord_encode .ret, fun hsp => ?_, exec_ret_fault⟩
  refine ⟨_, exec_ret_next hsp, rfl, sp_pred hsp, fun _ _ => rfl, fun p hp => ?_⟩
  cases p with
  | pc | sp => simp at hp
  | memory => exact fun _ => rfl
  | _ => simp [Same]

/-- Settles O29: the call leaves SP above 0 and the return address at SP, so the return pops just that. -/
theorem returnAfterCallComesBack : Obligations.ReturnAfterCallComesBack := by
  intro a s t u hcall hsp htop
  obtain ⟨hs, rfl⟩ := exec_callAddr_eq_next hcall
  have hu : u.sp ≠ 0 := hsp ▸ sp_succ_ne_zero hs
  refine ⟨_, exec_ret_next hu, ?_, ?_⟩
  · rw [htop, get_set_vector, if_pos rfl]
  · rw [hsp, add_sub_cancel_right]

/-! ### Skips (R114 to R117) -/

/-- A skip under a test that decides the condition. -/
theorem skippedIf_skipIf (s : State) {b : Bool} {c : Prop} (h : b = true ↔ c) : SkippedIf c s (s.skipIf b) := by
  refine ⟨fun hc => ?_, fun hc => ?_, fun r _ => s.reg_skipIf b r, fun p hp => ?_⟩
  · rw [State.skipIf_pc, if_pos (h.2 hc)]
  · rw [State.skipIf_pc, if_neg (mt h.1 hc)]
  · cases p with
    | pc => simp at hp
    | _ => simp [Same]

/-- Settles O30: the words are the skips' encodings, and each test is on the operands. -/
theorem skipsOnAnImmediate : Obligations.SkipsOnAnImmediate :=
  fun x kk s => ⟨decodeWord_encode (.seVxKk x kk), decodeWord_encode (.sneVxKk x kk),
    ⟨_, rfl, skippedIf_skipIf s beq_iff_eq⟩, ⟨_, rfl, skippedIf_skipIf s bne_iff_ne⟩⟩

/-- In the two families of register skips only the last nibble 0 makes an instruction (R76, D18). -/
theorem decodeWord_fmtXYS_eq_none {f k : BitVec 4} (x y : Reg) (hf : f = 0x5 ∨ f = 0x9) (hk : k ≠ 0) :
    decodeWord (fmtXYS f x y k) = none := by
  rcases hf with rfl | rfl <;> simpa [decodeWord] using hk

/-- Settles O31: the words with last nibble 0 are the skips' encodings, and each test is on the operands. -/
theorem skipsOnTwoRegisters : Obligations.SkipsOnTwoRegisters :=
  fun x y s => ⟨decodeWord_encode (.seVxVy x y), decodeWord_encode (.sneVxVy x y),
    ⟨_, rfl, skippedIf_skipIf s beq_iff_eq⟩, ⟨_, rfl, skippedIf_skipIf s bne_iff_ne⟩,
    fun _ hk => ⟨decodeWord_fmtXYS_eq_none x y (.inl rfl) hk, decodeWord_fmtXYS_eq_none x y (.inr rfl) hk⟩⟩

end Sys2Proof.Machine

/-! SUPPORT. What a written register, and a result with its flag, leave in the registers and alone; the values of the flag
bytes; then the statements about the register and ALU instructions (42_alu.md), from these. -/
namespace Sys2Proof.Machine
open Sys2Proof

/-! ### One written register (R130 to R135, R141) -/

theorem State.reg_setReg_self (s : State) (x : Reg) (b : Byte) : (s.setReg x b).reg x = b := by
  rw [State.reg_setReg, if_pos rfl]

theorem sameRegsBut_setReg (s : State) (x : Reg) (b : Byte) : SameRegsBut [x] s (s.setReg x b) := by
  intro q hq
  rw [State.reg_setReg, if_neg (List.ne_of_not_mem_cons hq)]

theorem sameBut_setReg (s : State) (x : Reg) (b : Byte) : SameBut [] s (s.setReg x b) := by
  intro p _
  cases p <;> simp [Same]

/-- Settles O33: the words are the loads' encodings, and each load writes its source to Vx. -/
theorem loadsCopyAnImmediateOrARegister : Obligations.LoadsCopyAnImmediateOrARegister :=
  fun x y kk s => ⟨decodeWord_encode (.ldVxKk x kk), decodeWord_encode (.ldVxVy x y),
    ⟨_, rfl, s.reg_setReg_self x _, sameRegsBut_setReg s x _, sameBut_setReg s x _⟩,
    ⟨_, rfl, s.reg_setReg_self x _, sameRegsBut_setReg s x _, sameBut_setReg s x _⟩⟩

/-- Settles O34: the sum of two bytes is taken modulo 256. -/
theorem addImmediateWrapsAndSetsNoFlag : Obligations.AddImmediateWrapsAndSetsNoFlag := by
  refine fun x kk s => ⟨decodeWord_encode (.addVxKk x kk), _, rfl, ?_, sameRegsBut_setReg s x _, sameBut_setReg s x _⟩
  rw [State.reg_setReg_self, BitVec.toNat_add]

/-- Settles O35: each bit of the written byte is the operation on the operands' bits. -/
theorem logicIsBitwiseAndSetsNoFlag : Obligations.LogicIsBitwiseAndSetsNoFlag := by
  refine fun x y s =>
    ⟨⟨_, rfl, fun k => ?_, sameRegsBut_setReg s x _, sameBut_setReg s x _⟩,
      ⟨_, rfl, fun k => ?_, sameRegsBut_setReg s x _, sameBut_setReg s x _⟩,
      ⟨_, rfl, fun k => ?_, sameRegsBut_setReg s x _, sameBut_setReg s x _⟩⟩
  · rw [State.reg_setReg_self, BitVec.getLsbD_or]
  · rw [State.reg_setReg_self, BitVec.getLsbD_and]
  · rw [State.reg_setReg_self, BitVec.getLsbD_xor]

/-- The random byte of a tick with a supplied input is the input's (R33). -/
theorem State.random_of_inputs {s : State} {r : TickInput} {rest : List TickInput} (h : s.inputs = r :: rest) :
    s.random = r.random := by
  rw [State.random, h]

/-- Settles O40: the word is the load's encoding, and the load writes the masked byte to Vx. -/
theorem randomIsTheMaskedByteOfTheTick : Obligations.RandomIsTheMaskedByteOfTheTick :=
  fun x kk s => ⟨decodeWord_encode (.rndVxKk x kk),
    ⟨_, rfl, s.reg_setReg_self x _, sameRegsBut_setReg s x _, sameBut_setReg s x _⟩,
    fun _ _ => State.random_of_inputs⟩

/-! ### A result and its flag, in the two orders of R143 (D7) -/

section
variable (s : State) (d : Reg) (b : Byte) (c : Bool)

theorem State.reg_resultThenFlag_vf : (s.resultThenFlag d b c).reg vf = flagByte c := by
  rw [State.reg_resultThenFlag, if_pos rfl]

theorem State.reg_resultThenFlag_dest (h : d ≠ vf) : (s.resultThenFlag d b c).reg d = b := by
  rw [State.reg_resultThenFlag, if_neg h, if_pos rfl]

theorem State.reg_flagThenResult_dest : (s.flagThenResult d b c).reg d = b := by
  rw [State.reg_flagThenResult, if_pos rfl]

theorem State.reg_flagThenResult_vf (h : d ≠ vf) : (s.flagThenResult d b c).reg vf = flagByte c := by
  rw [State.reg_flagThenResult, if_neg h.symm, if_pos rfl]

theorem sameRegsBut_resultThenFlag : SameRegsBut [d, vf] s (s.resultThenFlag d b c) := by
  intro q hq
  obtain ⟨hd, hv⟩ : q ≠ d ∧ q ≠ vf := by simpa using hq
  rw [State.reg_resultThenFlag, if_neg hv, if_neg hd]

theorem sameRegsBut_flagThenResult : SameRegsBut [d, vf] s (s.flagThenResult d b c) := by
  intro q hq
  obtain ⟨hd, hv⟩ : q ≠ d ∧ q ≠ vf := by simpa using hq
  rw [State.reg_flagThenResult, if_neg hd, if_neg hv]

/-- Either order writes two registers, one after the other. -/
theorem sameBut_resultThenFlag : SameBut [] s (s.resultThenFlag d b c) :=
  (sameBut_setReg s d b).trans (sameBut_setReg _ vf _)

theorem sameBut_flagThenResult : SameBut [] s (s.flagThenResult d b c) :=
  (sameBut_setReg s vf _).trans (sameBut_setReg _ d b)

end

/-! ### The values of results and flags (R142) -/

/-- A flag that tests a condition. -/
theorem flagByte_decide (p : Prop) [Decidable p] : flagByte (decide p) = if p then 1 else 0 := by
  simp only [flagByte, decide_eq_true_eq]

theorem flagByte_toNat (c : Bool) : (flagByte c).toNat = c.toNat := by
  cases c <;> rfl

/-- A difference of bytes in the form the statements give it. -/
theorem toNat_byte_sub (a b : Byte) : (a - b).toNat = (a.toNat + 256 - b.toNat) % 256 := by
  rw [BitVec.toNat_sub]
  omega

theorem lowBit_toNat (a : Byte) : (lowBit a).toNat = a.toNat % 2 := by
  rw [lowBit, BitVec.getLsbD, Nat.toNat_testBit, pow_zero, Nat.div_one]

/-- Nothing of a byte stands above bit 7. -/
theorem highBit_toNat (a : Byte) : (highBit a).toNat = a.toNat / 128 := by
  rw [highBit, BitVec.getLsbD, Nat.toNat_testBit]
  omega

/-- Settles O36: the carry is written last, so it stands in VF. -/
theorem addRegistersReportsTheCarry : Obligations.AddRegistersReportsTheCarry := by
  refine fun x y s => ⟨decodeWord_encode (.addVxVy x y), _, rfl, ?_, fun hx => ?_, sameRegsBut_resultThenFlag s x _ _,
    sameBut_resultThenFlag s x _ _⟩
  · rw [State.reg_resultThenFlag_vf, carry, flagByte_decide]
  · rw [State.reg_resultThenFlag_dest _ _ _ _ hx, BitVec.toNat_add]

/-- The result and the flag of a subtraction into `d`, flag first (R137, R139). -/
theorem flagThenResult_sub {s t : State} {d : Reg} {a b : Byte} (h : t = s.flagThenResult d (a - b) (notBorrow a b)) :
    (t.reg d).toNat = (a.toNat + 256 - b.toNat) % 256 ∧
    (d ≠ vf → t.reg vf = if a.toNat ≥ b.toNat then 1 else 0) ∧ SameRegsBut [d, vf] s t ∧ SameBut [] s t := by
  subst h
  refine ⟨?_, fun hd => ?_, sameRegsBut_flagThenResult s d _ _, sameBut_flagThenResult s d _ _⟩
  · rw [State.reg_flagThenResult_dest, toNat_byte_sub]
  · rw [State.reg_flagThenResult_vf _ _ _ _ hd, notBorrow, flagByte_decide]

/-- Settles O37: the difference Vx - Vy goes to Vx. -/
theorem subtractReportsNotBorrow : Obligations.SubtractReportsNotBorrow :=
  fun x y _ => ⟨decodeWord_encode (.subVxVy x y), _, rfl, flagThenResult_sub rfl⟩

/-- Settles O38: the difference Vy - Vx goes to Vy. -/
theorem reverseSubtractWritesVy : Obligations.ReverseSubtractWritesVy :=
  fun x y _ => ⟨decodeWord_encode (.subnVxVy x y), _, rfl, flagThenResult_sub rfl⟩

/-- Settles O39: the words are the shifts' encodings whatever y is, and each flag is the bit that falls out. -/
theorem shiftsReportTheBitShiftedOut : Obligations.ShiftsReportTheBitShiftedOut := by
  refine fun x y s => ⟨decodeWord_encode (.shrVx x y), decodeWord_encode (.shlVx x y),
    ⟨_, rfl, ?_, fun hx => ?_, sameRegsBut_flagThenResult s x _ _, sameBut_flagThenResult s x _ _⟩,
    ⟨_, rfl, ?_, fun hx => ?_, sameRegsBut_flagThenResult s x _ _, sameBut_flagThenResult s x _ _⟩⟩
  · rw [State.reg_flagThenResult_dest, BitVec.toNat_ushiftRight, Nat.shiftRight_eq_div_pow, pow_one]
  · rw [State.reg_flagThenResult_vf _ _ _ _ hx, flagByte_toNat, lowBit_toNat]
  · rw [State.reg_flagThenResult_dest, BitVec.toNat_shiftLeft, Nat.shiftLeft_eq, pow_one, mul_comm]
  · rw [State.reg_flagThenResult_vf _ _ _ _ hx, flagByte_toNat, highBit_toNat]

end Sys2Proof.Machine

/-! SUPPORT. The frames of a written I, of a checked write and of a block load; what a checked write leaves at each
address; then the statements about the address register and memory instructions (43_index_memory.md), from these. -/
namespace Sys2Proof.Machine
open Sys2Proof

/-! ### A written I (R150 to R152) -/

theorem sameBut_setI (s : State) (w : Word) : SameBut [.index] s (s.setI w) := by
  intro p hp
  cases p with
  | index => simp at hp
  | _ => simp [Same]

theorem sameRegsBut_setI (s : State) (w : Word) : SameRegsBut [] s (s.setI w) := fun r _ => s.reg_setI w r

/-- A sum into I is taken modulo 65536 (D14). -/
theorem toNat_add_byteWord (w : Word) (b : Byte) : (w + byteWord b).toNat = (w.toNat + b.toNat) % 65536 := by
  rw [BitVec.toNat_add, byteWord_toNat]

/-- Five times a byte fits in 16 bits, so the address of a glyph is not reduced. -/
theorem glyphAddr_toNat (b : Byte) : (glyphAddr b).toNat = b.toNat * 5 := by
  have hfive : glyphHeight.toNat = 5 := rfl
  rw [glyphAddr, BitVec.toNat_mul, byteWord_toNat, hfive]
  omega

/-- The decoder of a machine gives back the instructions that the machine has (R6). -/
theorem decodeFor_encode (cfg : Config) (i : Instr) :
    decodeFor cfg (encode i) = if i.wellFormed cfg then some i else none := by
  rw [decodeFor, decodeWord_encode]

/-- Settles O41: each instruction writes I alone, and the one word form with a switch is the load's encoding. -/
theorem addressRegisterLoadAndAdd : Obligations.AddressRegisterLoadAndAdd :=
  ⟨fun a s => ⟨s.setI (addrWord a), rfl, addrWord_toNat a, sameRegsBut_setI s _, sameBut_setI s _⟩,
    fun x s => ⟨s.setI (s.i + byteWord (s.reg x)), rfl, toNat_add_byteWord s.i (s.reg x), sameRegsBut_setI s _,
      sameBut_setI s _⟩,
    fun cfg a => decodeFor_encode cfg (.ldIAddr a)⟩

/-- Settles O42: the word is the load's encoding, and the product fits I. -/
theorem fontAddressIsFiveTimesVx : Obligations.FontAddressIsFiveTimesVx :=
  fun x s => ⟨decodeWord_encode (.ldFVx x), s.setI (glyphAddr (s.reg x)), rfl, glyphAddr_toNat (s.reg x),
    sameRegsBut_setI s _, sameBut_setI s _⟩

/-! ### A checked write (R57, R153, R154) -/

section
variable {s t : State} {a : Nat} {bs : List Byte}

theorem sameBut_memWrite (h : s.memWrite a bs = .next t) : SameBut [.memory] s t := by
  obtain ⟨-, rfl⟩ := State.memWrite_eq_next h
  intro p hp
  cases p with
  | memory => simp at hp
  | _ => simp [Same]

theorem sameRegsBut_memWrite (h : s.memWrite a bs = .next t) : SameRegsBut [] s t := by
  obtain ⟨-, rfl⟩ := State.memWrite_eq_next h
  exact fun _ _ => rfl

/-- The byte of each address written to. -/
theorem State.readByte_memWrite_add (h : s.memWrite a bs = .next t) {j : Nat} (hj : j < bs.length) :
    t.readByte (a + j) = bs[j] := by
  rw [State.readByte_memWrite h, if_pos (by omega), Nat.add_sub_cancel_left, List.getD_eq_getElem _ _ hj]

/-- Every address before or after the written ones keeps its byte. -/
theorem State.readByte_memWrite_outside (h : s.memWrite a bs = .next t) {q : Nat}
    (hq : q < a ∨ a + bs.length ≤ q) : t.readByte q = s.readByte q := by
  rw [State.readByte_memWrite h, if_neg (by omega)]

end

theorem toNat_byte_ofNat {n : Nat} (h : n < 256) : (BitVec.ofNat 8 n).toNat = n := by
  rw [BitVec.toNat_ofNat, Nat.mod_eq_of_lt h]

/-- Settles O43: three bytes from I are in range up to I = 4093, and each digit fits the byte it is stored in. -/
theorem decimalDigitsAreStoredAtI : Obligations.DecimalDigitsAreStoredAtI := by
  intro x s
  have hlen := length_decimalDigits (s.reg x)
  refine ⟨decodeWord_encode (.ldBVx x), fun hi => ?_, fun hi => State.memWrite_fault (by omega)⟩
  obtain ⟨t, hw⟩ : ∃ t, s.memWrite s.i.toNat (decimalDigits (s.reg x)) = .next t :=
    ⟨_, State.memWrite_next (.inr (by omega))⟩
  have hbyte := (s.reg x).isLt
  have hundreds : t.readByte s.i.toNat = BitVec.ofNat 8 ((s.reg x).toNat / 100) :=
    State.readByte_memWrite_add hw (j := 0) (by omega)
  have htens : t.readByte (s.i.toNat + 1) = BitVec.ofNat 8 ((s.reg x).toNat / 10 % 10) :=
    State.readByte_memWrite_add hw (by omega)
  have hones : t.readByte (s.i.toNat + 2) = BitVec.ofNat 8 ((s.reg x).toNat % 10) :=
    State.readByte_memWrite_add hw (by omega)
  refine ⟨t, hw, ?_, ?_, ?_, fun q hq => State.readByte_memWrite_outside hw (by omega), sameRegsBut_memWrite hw,
    sameBut_memWrite hw⟩
  · rw [hundreds, toNat_byte_ofNat (by omega)]
  · rw [htens, toNat_byte_ofNat (by omega)]
  · rw [hones, toNat_byte_ofNat (by omega)]

/-- Settles O44: the `x + 1` bytes from I are in range up to I + x = 4095. -/
theorem registersAreStoredAtI : Obligations.RegistersAreStoredAtI := by
  intro x s
  have hlen := s.length_regsUpTo x
  refine ⟨decodeWord_encode (.ldMemVx x), fun hi => ?_, fun hi => State.memWrite_fault (by omega)⟩
  have hw := State.memWrite_next (s := s) (a := s.i.toNat) (bs := s.regsUpTo x) (.inr (by omega))
  exact ⟨_, hw, fun j => readByte_exec_ldMemVx hw, fun q hq => State.readByte_memWrite_outside hw (by omega),
    sameRegsBut_memWrite hw, sameBut_memWrite hw⟩

/-! ### A block load (R155) -/

theorem sameBut_setRegs (s : State) (j : Nat) (bs : List Byte) : SameBut [] s (s.setRegs j bs) := by
  intro p _
  cases p <;> simp [Same]

/-- A block load writes no register after the last one it names. -/
theorem reg_exec_ldVxMem_of_lt {x j : Reg} {s t : State} (h : exec (.ldVxMem x) s = .next t) (hj : x < j) :
    t.reg j = s.reg j := by
  obtain ⟨-, rfl⟩ := exec_ldVxMem_eq_next h
  by_contra hne
  exact absurd (State.le_of_reg_setRegs_ne (by simp) hne) (not_le.2 hj)

/-- Settles O45: the load answers in range, and writes the named registers alone. -/
theorem registersAreLoadedFromI : Obligations.RegistersAreLoadedFromI := by
  refine fun x s => ⟨decodeWord_encode (.ldVxMem x), fun hi => ?_, exec_ldVxMem_fault x⟩
  have hw := exec_ldVxMem_next x hi
  exact ⟨_, hw, fun j => reg_exec_ldVxMem hw, fun j => reg_exec_ldVxMem_of_lt hw, sameBut_setRegs s 0 _⟩

end Sys2Proof.Machine

/-! SUPPORT. The effects that write the frame; what a draw that completes leaves at each pixel, in VF and alone; then
the statements about the display (44_display.md), from these. -/
namespace Sys2Proof.Machine
open Sys2Proof

/-! ### The writers of the frame (R170, R171) -/

theorem Effect.fb_eq_or {i : Instr} {s t : State} (h : Effect s i t) :
    t.fb = s.fb ∨ i = .cls ∨ ∃ x y n, i = .drwVxVyN x y n := by
  cases h with
  | clear => exact .inr (.inl rfl)
  | draw x y n => exact .inr (.inr ⟨x, y, n, rfl⟩)
  | _ => exact .inl (by simp)

/-- Settles O19: of the effects only the clear and the draw have another frame. -/
theorem onlyClearAndDrawChangeTheFrame : Obligations.OnlyClearAndDrawChangeTheFrame := by
  intro i s t h hne
  exact (exec_effect h).fb_eq_or.resolve_left hne

/-- The frame is one part of the state. -/
theorem sameBut_withFb (s : State) (fb : Frame) : SameBut [.screen] s { s with fb := fb } := by
  intro p hp
  cases p with
  | screen => simp at hp
  | memory => exact fun _ => rfl
  | _ => simp [Same]

/-- Settles O49: the word is the clear's encoding, and the clear writes the frame alone. -/
theorem clearTurnsEveryPixelOff : Obligations.ClearTurnsEveryPixelOff :=
  fun s => ⟨decodeWord_encode .cls, _, rfl, Frame.pixel_clear, fun _ _ => rfl, sameBut_withFb s _⟩

/-! ### The sprite of a draw (R172, R173) -/

/-- Bit `col` of row `row` of the sprite at I, most significant bit first. -/
def State.spriteBitAt (s : State) (row col : Nat) : Bool := (s.readByte (s.i.toNat + row)).getLsbD (7 - col)

/-- A 1 bit of the sprite that `Dxyn` draws from `s` falls on a pixel that is `p` in `s`. -/
def State.SpriteMeets (s : State) (x y : Reg) (n : RowCount) (p : Bool) : Prop :=
  ∃ row col r c, row < n.val ∧ col < 8 ∧ Targets (s.reg x).toNat (s.reg y).toNat row col r c ∧
    s.fb.pixel r c = p ∧ s.spriteBitAt row col = true

/-- The bytes of the sprite, first row first. -/
def State.sprite (s : State) (n : RowCount) : List Byte :=
  (List.range n.val).map fun j => s.readByte (s.i.toNat + j)

@[simp] theorem State.length_sprite (s : State) (n : RowCount) : (s.sprite n).length = n.val := by
  simp [State.sprite]

theorem State.spriteBit_sprite (s : State) {n : RowCount} {row : Nat} (h : row < n.val) (col : Nat) :
    spriteBit ((s.sprite n).getD row 0) col = s.spriteBitAt row col := by
  simp [spriteBit, State.spriteBitAt, State.sprite, List.getD_eq_getElem?_getD, h]

theorem flagByte_eq_one (c : Bool) : flagByte c = 1 ↔ c = true := by
  cases c <;> decide

theorem flagByte_eq_zero (c : Bool) : flagByte c = 0 ↔ c = false := by
  cases c <;> decide

section
variable {x y : Reg} {n : RowCount} {s t : State} (h : exec (.drwVxVyN x y n) s = .next t)
include h

/-- A draw that completes was in range, or had no row to read (D27). -/
theorem exec_drwVxVyN_inRange : n = 0 ∨ s.i.toNat + n.val - 1 ≤ 4095 := by
  obtain ⟨hr, -⟩ := exec_drwVxVyN_eq_next h
  exact hr

theorem fb_exec_drwVxVyN : t.fb = (draw s.fb (s.reg x).toNat (s.reg y).toNat (s.sprite n)).1 := by
  obtain ⟨-, rfl⟩ := exec_drwVxVyN_eq_next h
  rfl

theorem reg_vf_exec_drwVxVyN :
    t.reg vf = flagByte (draw s.fb (s.reg x).toNat (s.reg y).toNat (s.sprite n)).2 := by
  obtain ⟨-, rfl⟩ := exec_drwVxVyN_eq_next h
  rw [State.reg_setFlag, if_pos rfl]
  rfl

theorem sameRegsBut_exec_drwVxVyN : SameRegsBut [vf] s t := by
  obtain ⟨-, rfl⟩ := exec_drwVxVyN_eq_next h
  exact sameRegsBut_setReg { s with fb := _ } vf _

theorem sameBut_exec_drwVxVyN : SameBut [.screen] s t := by
  obtain ⟨-, rfl⟩ := exec_drwVxVyN_eq_next h
  exact (sameBut_withFb s _).trans (sameBut_setReg _ vf _)

/-- A pixel that a sprite bit targets. -/
theorem pixel_exec_drwVxVyN_hit {row col : Nat} {r : Fin 32} {c : Fin 64} (hrow : row < n.val) (hcol : col < 8)
    (ht : Targets (s.reg x).toNat (s.reg y).toNat row col r c) :
    t.fb.pixel r c = xor (s.fb.pixel r c) (s.spriteBitAt row col) := by
  have hlen := s.length_sprite n
  rw [fb_exec_drwVxVyN h, draw_hit _ _ _ _ (by omega) (by omega) hcol ht, s.spriteBit_sprite hrow]

/-- A pixel that no sprite bit targets. -/
theorem pixel_exec_drwVxVyN_miss {r : Fin 32} {c : Fin 64}
    (hm : ∀ row col, row < n.val → col < 8 → ¬ Targets (s.reg x).toNat (s.reg y).toNat row col r c) :
    t.fb.pixel r c = s.fb.pixel r c := by
  rw [fb_exec_drwVxVyN h, draw_miss]
  rwa [State.length_sprite]

/-- The flag is the collision of a 1 bit with an on pixel. -/
theorem reg_vf_exec_drwVxVyN_eq_one : t.reg vf = 1 ↔ s.SpriteMeets x y n true := by
  have hlen := s.length_sprite n
  rw [reg_vf_exec_drwVxVyN h, flagByte_eq_one, draw_collision _ _ _ _ (by omega), hlen]
  refine exists₄_congr fun row col r c => and_congr_right fun hrow => ?_
  rw [s.spriteBit_sprite hrow]

theorem reg_vf_exec_drwVxVyN_eq_zero : t.reg vf = 0 ↔ ¬ s.SpriteMeets x y n true := by
  rw [← reg_vf_exec_drwVxVyN_eq_one h, reg_vf_exec_drwVxVyN h, flagByte_eq_zero, flagByte_eq_one,
    Bool.not_eq_true]

end

/-- Settles O50: the word is the draw's encoding; in range the draw completes, out of range it does not. -/
theorem drawXorsTheSpriteAndReportsCollision : Obligations.DrawXorsTheSpriteAndReportsCollision := by
  refine fun x y n s => ⟨decodeWord_encode (.drwVxVyN x y n), fun hr => ?_, exec_drwVxVyN_fault x y n⟩
  have hw := exec_drwVxVyN_next x y n hr
  refine ⟨_, hw, fun _ _ _ _ => pixel_exec_drwVxVyN_hit hw, fun _ _ => pixel_exec_drwVxVyN_miss hw,
    (reg_vf_exec_drwVxVyN_eq_one hw).2, fun hoff => (reg_vf_exec_drwVxVyN_eq_zero hw).2 ?_,
    sameRegsBut_exec_drwVxVyN hw, sameBut_exec_drwVxVyN hw⟩
  rintro ⟨row, col, r, c, hrow, hcol, ht, hp, hb⟩
  exact Bool.false_ne_true ((hoff row col r c hrow hcol ht hp).symm.trans hb)

/-! ### The same sprite again (R172 (e)) -/

section
variable {x y : Reg} {n : RowCount} {s t : State} (h : exec (.drwVxVyN x y n) s = .next t)
include h

/-- A draw leaves I. -/
theorem i_exec_drwVxVyN : t.i = s.i := sameBut_exec_drwVxVyN h .index (by decide)

/-- A draw leaves its sprite. -/
theorem spriteBitAt_exec_drwVxVyN (row col : Nat) : t.spriteBitAt row col = s.spriteBitAt row col := by
  have hmem : ∀ a, t.readByte a = s.readByte a := sameBut_exec_drwVxVyN h .memory (by decide)
  rw [State.spriteBitAt, i_exec_drwVxVyN h, hmem, State.spriteBitAt]

/-- A draw leaves a register that is not VF, so also such a coordinate. -/
theorem reg_exec_drwVxVyN {q : Reg} (hq : q ≠ vf) : t.reg q = s.reg q :=
  sameRegsBut_exec_drwVxVyN h q (by simpa using hq)

/-- A 1 bit of the sprite has turned the pixel it falls on, so it meets the opposite value in a second draw. -/
theorem spriteMeets_exec_drwVxVyN (hx : x ≠ vf) (hy : y ≠ vf) (p : Bool) :
    t.SpriteMeets x y n p ↔ s.SpriteMeets x y n (!p) := by
  simp only [State.SpriteMeets, reg_exec_drwVxVyN h hx, reg_exec_drwVxVyN h hy, spriteBitAt_exec_drwVxVyN h]
  refine exists₄_congr fun row col r c => and_congr_right fun hrow => and_congr_right fun hcol =>
    and_congr_right fun ht => and_congr_left fun hb => ?_
  rw [pixel_exec_drwVxVyN_hit h hrow hcol ht, hb, Bool.xor_true, Bool.not_eq_eq_eq_not]

/-- A second draw of the same sprite turns back every pixel the first one turned. -/
theorem pixel_exec_drwVxVyN_twice {u : State} (h' : exec (.drwVxVyN x y n) t = .next u) (hx : x ≠ vf) (hy : y ≠ vf)
    (r : Fin 32) (c : Fin 64) : u.fb.pixel r c = s.fb.pixel r c := by
  have hrx := reg_exec_drwVxVyN h hx
  have hry := reg_exec_drwVxVyN h hy
  by_cases hm : ∀ row col, row < n.val → col < 8 → ¬ Targets (s.reg x).toNat (s.reg y).toNat row col r c
  · rw [pixel_exec_drwVxVyN_miss h' (by rwa [hrx, hry]), pixel_exec_drwVxVyN_miss h hm]
  · push Not at hm
    obtain ⟨row, col, hrow, hcol, ht⟩ := hm
    rw [pixel_exec_drwVxVyN_hit h' hrow hcol (by rwa [hrx, hry]), pixel_exec_drwVxVyN_hit h hrow hcol ht,
      spriteBitAt_exec_drwVxVyN h, Bool.xor_assoc, Bool.xor_self, Bool.xor_false]

end

/-- Settles O51: the second draw reads the same sprite at the same place, in range as the first was. -/
theorem drawingTwiceRestoresTheFrame : Obligations.DrawingTwiceRestoresTheFrame := by
  intro x y n s t hx hy h
  have hw := exec_drwVxVyN_next x y n (s := t) ((i_exec_drwVxVyN h).symm ▸ exec_drwVxVyN_inRange h)
  exact ⟨_, hw, pixel_exec_drwVxVyN_twice h hw hx hy,
    (reg_vf_exec_drwVxVyN_eq_one hw).trans (spriteMeets_exec_drwVxVyN h hx hy true)⟩

end Sys2Proof.Machine

/-! SUPPORT. The key a supplied input answers for; the start of a key wait, from the poll it makes; the frames of the
written timers; then the statements about keys and timers (45_keys_timers.md), from these. -/
namespace Sys2Proof.Machine
open Sys2Proof

/-! ### Key skips (R190, R191) -/

/-- In a tick with a supplied input, its bits answer for the keys 0 to 15 (R33, R197). -/
theorem State.keyHeld_of_inputs {s : State} {r : TickInput} {rest : List TickInput} {k : Nat}
    (h : s.inputs = r :: rest) (hk : k < 16) : s.keyHeld k = r.keys.getLsbD k := by
  rw [State.keyHeld, if_pos hk, State.keys, h]

/-- In family E only the low bytes 9E and A1 make an instruction (R76, D18). -/
theorem decodeWord_fmtXKK_E_eq_none (x : Reg) {kk : Byte} (h9E : kk ≠ 0x9E) (hA1 : kk ≠ 0xA1) :
    decodeWord (fmtXKK 0xE x kk) = none := by
  have hfamily : decodeWord (fmtXKK 0xE x kk) = decodeE (fmtXKK 0xE x kk) := by simp [decodeWord]
  rw [hfamily, decodeE, fieldKk_fmtXKK, if_neg h9E, if_neg hA1]

/-- Settles O52: the words are the skips' encodings, and each test is on the key numbered Vx. -/
theorem keySkipsFollowTheKeyNumberedVx : Obligations.KeySkipsFollowTheKeyNumberedVx :=
  fun x s => ⟨decodeWord_encode (.skpVx x), decodeWord_encode (.sknpVx x),
    ⟨_, rfl, skippedIf_skipIf s Iff.rfl⟩, ⟨_, rfl, skippedIf_skipIf s (Bool.not_eq_true' _).to_iff⟩,
    fun _ _ _ => State.keyHeld_of_inputs, fun _ => decodeWord_fmtXKK_E_eq_none x⟩

/-! ### The start of a key wait (R193, D9, D10) -/

section
variable {s : State}

/-- With a key held, the fetch tick polls as a waiting tick does. -/
theorem keyWaitStart_of_lowestHeld (x : Reg) {k : Nat} (h : LowestHeld s k) :
    keyWaitStart x s = keyWaitPoll x s := by
  rw [keyWaitStart, (s.lowestHeld_some k).2 h]

theorem keyWaitStart_of_noKeyHeld (x : Reg) (h : NoKeyHeld s) :
    keyWaitStart x s = { s with wait := { active := true, reg := x } } := by
  rw [keyWaitStart, s.lowestHeld_none.2 h]

end

/-- The wait is one part of the state. -/
theorem sameBut_withWait (s : State) (w : Wait) : SameBut [.wait] s { s with wait := w } := by
  intro p hp
  cases p with
  | wait => simp at hp
  | memory => exact fun _ => rfl
  | _ => simp [Same]

/-- Settles O53: with a key held the wait's start is the poll, which takes the lowest one; else it writes the wait
alone. -/
theorem waitForKeyTakesTheLowestHeldKeyOrWaits : Obligations.WaitForKeyTakesTheLowestHeldKeyOrWaits := by
  refine fun x s => ⟨decodeWord_encode (.ldVxK x), fun k hk => ?_, fun hk => ?_⟩
  · have hexec : exec (.ldVxK x) s = .next (keyWaitPoll x s) := congrArg _ (keyWaitStart_of_lowestHeld x hk)
    have hwait := wait_keyWaitPoll x hk
    refine ⟨_, hexec, ?_, by rw [hwait], by rw [hwait], fun q hq => ?_, sameBut_keyWaitPoll x hk⟩
    · rw [reg_keyWaitPoll x hk, if_pos rfl, BitVec.toNat_ofNat]
      obtain ⟨hlt, -⟩ := hk
      exact Nat.mod_eq_of_lt (by omega)
    · rw [reg_keyWaitPoll x hk, if_neg (List.ne_of_not_mem_cons hq)]
  · have hexec : exec (.ldVxK x) s = .next { s with wait := { active := true, reg := x } } :=
      congrArg _ (keyWaitStart_of_noKeyHeld x hk)
    exact ⟨_, hexec, rfl, rfl, fun _ _ => rfl, sameBut_withWait s _⟩

/-! ### The timer instructions (R192, R195, R196) -/

/-- DT is one part of the state. -/
theorem sameBut_withDt (s : State) (b : Byte) : SameBut [.dt] s { s with dt := b } := by
  intro p hp
  cases p with
  | dt => simp at hp
  | memory => exact fun _ => rfl
  | _ => simp [Same]

/-- ST is one part of the state. -/
theorem sameBut_withSt (s : State) (b : Byte) : SameBut [.st] s { s with st := b } := by
  intro p hp
  cases p with
  | st => simp at hp
  | memory => exact fun _ => rfl
  | _ => simp [Same]

/-- Settles O54: the words are the timer instructions' encodings, and each writes its one destination. -/
theorem timersAreReadAndSetThroughVx : Obligations.TimersAreReadAndSetThroughVx :=
  fun x s => ⟨decodeWord_encode (.ldVxDt x), decodeWord_encode (.ldDtVx x), decodeWord_encode (.ldStVx x),
    ⟨_, rfl, s.reg_setReg_self x _, sameRegsBut_setReg s x _, sameBut_setReg s x _⟩,
    ⟨_, rfl, rfl, fun _ _ => rfl, sameBut_withDt s _⟩,
    ⟨_, rfl, rfl, fun _ _ => rfl, sameBut_withSt s _⟩⟩

end Sys2Proof.Machine

/-! SUPPORT. When the bytes an instruction accesses lie out of range, instruction by instruction; then the statement about
all errors (60_exceptions.md R211 to R213). -/
namespace Sys2Proof.Machine
open Sys2Proof

theorem inRange_eq_false_iff (a n : Nat) : inRange a n = false ↔ 1 ≤ n ∧ 4095 < a + n - 1 := by
  rw [← Bool.not_eq_true, inRange_iff]
  omega

/-- Only a draw, `Fx33`, `Fx55` and `Fx65` access memory, so only they can go beyond address 4095 (R213). -/
theorem accessLength_outOfRange_iff (a : Nat) (i : Instr) :
    inRange a (accessLength i) = false ↔
      (∃ x y n, i = .drwVxVyN x y n ∧ 1 ≤ n.val ∧ 4095 < a + n.val - 1) ∨
      ((∃ x, i = .ldBVx x) ∧ 4095 < a + 2) ∨
      (∃ x : Reg, (i = .ldMemVx x ∨ i = .ldVxMem x) ∧ 4095 < a + x.val) := by
  rw [inRange_eq_false_iff]
  constructor
  · rintro ⟨hlen, hlast⟩
    cases i with
    | drwVxVyN x y n => exact .inl ⟨x, y, n, rfl, hlen, hlast⟩
    | ldBVx x => exact .inr (.inl ⟨⟨x, rfl⟩, hlast⟩)
    | ldMemVx x => exact .inr (.inr ⟨x, .inl rfl, hlast⟩)
    | ldVxMem x => exact .inr (.inr ⟨x, .inr rfl, hlast⟩)
    | _ => exact absurd hlen (Nat.not_succ_le_zero 0)
  · rintro (⟨x, y, n, rfl, hlen, hlast⟩ | ⟨⟨x, rfl⟩, hlast⟩ | ⟨x, rfl | rfl, hlast⟩)
    · exact ⟨hlen, hlast⟩
    · exact ⟨Nat.le_add_left 1 2, hlast⟩
    · exact ⟨Nat.le_add_left 1 x.val, hlast⟩
    · exact ⟨Nat.le_add_left 1 x.val, hlast⟩

/-- Settles O11: an instruction raises exactly the errors of `Raises`, its out-of-range case told apart by instruction. -/
theorem errorsAreRaisedExactlyWhereTheSpecSays : Obligations.ErrorsAreRaisedExactlyWhereTheSpecSays := by
  intro i s f
  rw [exec_eq_fault]
  constructor
  · rintro (⟨a, hsp⟩ | hsp | hr)
    · exact .inl ⟨⟨a, rfl⟩, hsp, rfl⟩
    · exact .inr (.inl ⟨rfl, hsp, rfl⟩)
    · rcases (accessLength_outOfRange_iff _ i).1 hr with hdraw | ⟨hdigits, hlast⟩ | hregs
      · exact .inr (.inr (.inl ⟨hdraw, rfl⟩))
      · exact .inr (.inr (.inr (.inl ⟨hdigits, hlast, rfl⟩)))
      · exact .inr (.inr (.inr (.inr ⟨hregs, rfl⟩)))
  · rintro (⟨⟨a, rfl⟩, hsp, rfl⟩ | ⟨rfl, hsp, rfl⟩ | ⟨hdraw, rfl⟩ | ⟨hdigits, hlast, rfl⟩ | ⟨hregs, rfl⟩)
    · exact .overflow a hsp
    · exact .underflow hsp
    · exact .outOfRange ((accessLength_outOfRange_iff _ i).2 (.inl hdraw))
    · exact .outOfRange ((accessLength_outOfRange_iff _ i).2 (.inr (.inl ⟨hdigits, hlast⟩)))
    · exact .outOfRange ((accessLength_outOfRange_iff _ i).2 (.inr (.inr hregs)))

end Sys2Proof.Machine

/-! SUPPORT. What reset/load answers and leaves, and the tick of an instruction that begins no wait; then the statements
about reset and hazards (70_reset_and_hazards.md), from these. -/
namespace Sys2Proof.Machine
open Sys2Proof

/-! ### What reset/load answers (R240, R241) -/

theorem resetLoad_of_not_fits {cfg : Config} {image : List Byte} (prior : State)
    (h : 4096 < cfg.startOffset.addr.toNat + image.length) :
    resetLoad cfg image prior = (prior, .capacityError) :=
  if_neg (fun hfits => absurd (of_decide_eq_true hfits) (Nat.not_le.2 h))

/-- Reset/load succeeds exactly if the image fits. -/
theorem resetLoad_snd_eq_ok_iff (cfg : Config) (image : List Byte) (prior : State) :
    (resetLoad cfg image prior).2 = .ok ↔ cfg.startOffset.addr.toNat + image.length ≤ 4096 := by
  rcases Nat.lt_or_ge 4096 (cfg.startOffset.addr.toNat + image.length) with h | h
  · simp [resetLoad_of_not_fits prior h, h]
  · simp [resetLoad_of_fits prior h, h]

/-- A reset/load that succeeds was given an image that fits, and leaves the loaded state. -/
theorem resetLoad_eq_ok {cfg : Config} {image : List Byte} {prior t : State}
    (h : resetLoad cfg image prior = (t, .ok)) :
    cfg.startOffset.addr.toNat + image.length ≤ 4096 ∧ t = loadedState cfg image prior := by
  have hfits := (resetLoad_snd_eq_ok_iff cfg image prior).1 (congrArg Prod.snd h)
  rw [resetLoad_of_fits prior hfits] at h
  exact ⟨hfits, (congrArg Prod.fst h).symm⟩

theorem startOffset_addr_le (cfg : Config) : cfg.startOffset.addr.toNat ≤ 0x600 := by
  cases cfg.startOffset <;> decide

/-- Memory from the start offset on is the image, and zeros after its end: the font does not reach there (D17). -/
theorem readByte_loadedState_add (cfg : Config) (image : List Byte) (prior : State) (j : Nat) :
    (loadedState cfg image prior).readByte (cfg.startOffset.addr.toNat + j) = image.getD j 0 := by
  have hfont := font_length_le_startOffset cfg
  rw [readByte_loadedState]
  split
  · rw [Nat.add_sub_cancel_left]
  · rw [List.getD_eq_default _ _ (by omega), List.getD_eq_default _ _ (by omega)]

/-! ### The statements about reset -/

/-- An empty stack has no live entry. -/
theorem stackInv_empty : StackInv (Vector.replicate 16 0) 0 :=
  ⟨rfl, fun j h1 h0 => absurd (Fin.le_trans h1 h0) (by decide)⟩

theorem loadedState_inv {cfg : Config} {image : List Byte} (prior : State)
    (h : cfg.startOffset.addr.toNat + image.length ≤ 4096) : Inv (loadedState cfg image prior) :=
  (inv_iff _).2 ⟨Memory.wf_setAll cfg.font [] _ image rfl (.inr h), (startOffset_addr_le cfg).trans (by decide),
    stackInv_empty, fun hwait => absurd hwait Bool.false_ne_true⟩

/-- Settles O16: the loaded state meets the invariant, its memory by writes within range. -/
theorem theInvariantHoldsAfterEveryLoad : Obligations.TheInvariantHoldsAfterEveryLoad := by
  intro cfg image prior t h
  obtain ⟨hfits, rfl⟩ := resetLoad_eq_ok h
  exact loadedState_inv prior hfits

/-- Settles O15: the reset state is what a load of the empty image leaves. -/
theorem theInvariantHoldsAtReset : Obligations.TheInvariantHoldsAtReset :=
  theInvariantHoldsAfterEveryLoad _ _ _ _ State.reset_eq_load

/-- Settles O57: the capacity check decides, and the two largest sizes are what it leaves at each offset. -/
theorem aTooLargeImageChangesNothing : Obligations.ATooLargeImageChangesNothing := by
  refine fun cfg image prior => ⟨resetLoad_of_not_fits prior,
    fun hfits => ⟨_, resetLoad_of_fits prior hfits, fun j _ => readByte_loadedState_add cfg image prior j,
      fun a ha => ?_⟩, fun hoff => ?_, fun hoff => ?_⟩
  · rw [readByte_loadedState, if_neg (by omega)]
  · have haddr : cfg.startOffset.addr.toNat = 512 := by rw [hoff]; rfl
    rw [resetLoad_snd_eq_ok_iff]
    omega
  · have haddr : cfg.startOffset.addr.toNat = 1536 := by rw [hoff]; rfl
    rw [resetLoad_snd_eq_ok_iff]
    omega

/-- Settles O58: PC is the start offset, in range of a fetch, and the two bytes there are the image's. -/
theorem theFirstFetchReadsTheImage : Obligations.TheFirstFetchReadsTheImage := by
  intro cfg image prior t h
  obtain ⟨-, rfl⟩ := resetLoad_eq_ok h
  have hpc : (loadedState cfg image prior).pc = cfg.startOffset.addr := rfl
  refine ⟨hpc, ?_⟩
  rcases (loadedState cfg image prior).fetchWord_cases with ⟨-, hfetch⟩ | ⟨hgt, -⟩
  · have hfirst := readByte_loadedState_add cfg image prior 0
    rw [Nat.add_zero] at hfirst
    rw [hfetch, wordAtPc, hpc, hfirst, readByte_loadedState_add]
  · rw [hpc] at hgt
    have := startOffset_addr_le cfg
    omega

/-! ### A timer set in the tick that decrements it (R246) -/

/-- The tick of an instruction that leaves the wait alone counts once, from the state the instruction leaves. -/
theorem step_countedOnce {s u : State} {i : Instr} (hf : Fetches s)
    (hd : decodeFor s.cfg (wordAtPc s) = some i) (hexec : exec i s.advancePc = .next u) (hwait : u.wait = s.wait) :
    ∃ t, step s = .next t ∧ CountedOnce u t := by
  have hstep : step s = .next u.endTick := (step_instr hf hd).trans (congrArg finishTick hexec)
  obtain ⟨-, hw, -⟩ := hf
  rw [← hwait] at hw
  exact ⟨_, hstep, State.endTick_countedOnce (State.counted_of_not_waiting hw)⟩

/-- Settles O55: the count at the end of the tick starts from the timer that the instruction has just written. -/
theorem aTimerSetInADecrementingTickLosesOneCount : Obligations.ATimerSetInADecrementingTickLosesOneCount := by
  refine fun s x hf => ⟨fun hd => ?_, fun hd => ?_⟩
  · obtain ⟨t, hstep, hticks, hdue, hnot⟩ :=
      step_countedOnce (u := { s.advancePc with dt := s.reg x }) hf hd rfl rfl
    exact ⟨t, hstep, hticks, fun e => (hdue e).left, fun e => (hnot e).left⟩
  · obtain ⟨t, hstep, hticks, hdue, hnot⟩ :=
      step_countedOnce (u := { s.advancePc with st := s.reg x }) hf hd rfl rfl
    exact ⟨t, hstep, hticks, fun e => (hdue e).right, fun e => (hnot e).right⟩

end Sys2Proof.Machine
